-- ==== Sys2Proof/Word.lean ====
section
/-! DEFINITION. The register port's 32-bit word, the byte, and the byte string `FieldBytes` (rules R11, R13).
Plain names only: everything that computes with them stands under `Sys2Proof/Machine/`. -/

namespace Sys2Proof

/-- A word of the register port: 32 bits, bit 0 the least significant (R11). -/
abbrev Word := BitVec 32

/-- One byte of a byte string (R11). -/
abbrev Byte := BitVec 8

/-- The spec's `FieldBytes` (R13): a byte string, first byte first.
Its length is the instance's `L`; that every register holds exactly `L` bytes is part of the invariant
`Machine.State.Inv`, because `L` differs between instances (R6). -/
abbrev FieldBytes := List Byte

end Sys2Proof
end

