-- ==== Sys2Proof/Config.lean ====
section
/-! DEFINITION. What one PDE instance fixes when it is built (rules R5, R6, R7, R9), the source's own toy curve,
and the two values that the field contract leaves open (R96 (ii) and (iii)), which have no body. -/

namespace Sys2Proof

/-- The curve descriptor of one instance: "`{a, b, p, field_byte_length}` plus the two capability booleans"
(R5, R6, R7). Constant for the life of an instance (R9, R35). What makes one legal is `Curve.WellFormed`. -/
structure Curve where
  /-- The prime modulus `p` (R5). -/
  p : Nat
  /-- The coefficient `a` of `y^2 = x^3 + a*x + b` (R5). -/
  a : Nat
  /-- The coefficient `b` (R5). -/
  b : Nat
  /-- The field byte length `L` (R6). -/
  len : Nat
  /-- The marker `COMPRESS_DEFAULT` (R7). -/
  compressDefault : Bool
  /-- The marker `COMPACT_DEFAULT` (R7). -/
  compactDefault : Bool
  deriving DecidableEq, Repr

/-- The instance `T97` of `95_test_vectors.md`: the source's curve `y² = x³ + 2x + 3 (mod 97)` with `L = 1`.
DESIGN CHOICE (log entry 1): it is the instance `Machine.State.reset` is a reset state of. -/
def Curve.t97 : Curve :=
  { p := 97, a := 2, b := 3, len := 1, compressDefault := true, compactDefault := false }

namespace Config

/-- FREE VALUE (R96 (ii), U5, D23; log entry 3). The spec's uninterpreted per-instance function `SqrtRoot`:
for a residue `v` of the instance's field, whether the backend returns the negative of the least root
(`true`) or the least root itself (`false`). It has no body: no proof can know which. -/
opaque sqrtRoot : Curve → Nat → Bool

/-- FREE VALUE (R96 (iii), U6; log entry 4). What the backend's `sqrt` leaves as the root of a non-residue `v`;
the model takes it modulo `p`, "any value in `[0, p)`". It has no body. -/
opaque sqrtFail : Curve → Nat → Nat

end Config

end Sys2Proof
end

