-- ==== Sys2Proof/Syntax.lean ====
section
/-! DEFINITION. The command set: one constructor for each row of spec/opcode_table.json (rules R2, R74). -/

namespace Sys2Proof

/-- The four commands of the PDE; "the four commands of rule R74 are the whole command set" (R1).
The operands of a command are the registers `X_IN` and `Y_IN`, never fields of the command word (R70). -/
inductive Instr where
  /-- `DECOMPRESS` with its one-bit immediate `S`, the source's `y_is_odd` (R72, R110). -/
  | decompress (yIsOdd : Bool)
  /-- `DECOMPACT` (R120). -/
  | decompact
  /-- `COMPRESS` (R131). -/
  | compress
  /-- `COMPACT` (R132). -/
  | compact
  deriving DecidableEq, Repr

end Sys2Proof
end

