-- ==== Sys2Proof/WellFormed.lean ====
section
/-! DEFINITION. What makes a command and a curve descriptor legal (rules R5, R6, R72). -/

namespace Sys2Proof

/-- Every term of `Instr` is a legal command: `S` is a `Bool` and only `DECOMPRESS` has it, so the ill-formed
commands of R72 (`S = 1` with a command that takes no sign) cannot be written. One arm a constructor, so that a
constructor added later must say what makes it legal. -/
def Instr.wellFormed : Instr → Bool
  | .decompress _ => true
  | .decompact => true
  | .compress => true
  | .compact => true

/-- The constraints on the parameters of an instance (R5, R6; the parameter summary of `00_scope.md`). The
capability markers are unconstrained (R7), and non-singularity of the curve is deliberately not required (R5, D3). -/
structure Curve.WellFormed (c : Curve) : Prop where
  /-- "`p` is the prime modulus of the field" (R5). -/
  prime : c.p.Prime
  /-- "an **odd** prime" (R5). -/
  odd : c.p % 2 = 1
  /-- `a` is "an integer in `[0, p)`" (R5). -/
  a_lt : c.a < c.p
  /-- `b` is "an integer in `[0, p)`" (R5). -/
  b_lt : c.b < c.p
  /-- `1 <= L` (R6). -/
  len_pos : 1 ≤ c.len
  /-- `L <= 128` (R6). -/
  len_le : c.len ≤ 128
  /-- `p <= 2^(8*L) - 1`, "so that every field element has an `L`-byte encoding" (R6). -/
  p_lt : c.p < 256 ^ c.len

end Sys2Proof
end

