-- ==== Sys2Proof/Decode.lean ====
section
/-! DEFINITION. The command decoder, total on words and rejecting by name (rules R70 to R76), and after it the
encoder written from the same rows (R74). -/

namespace Sys2Proof

/-- Field `OP = w[3:0]` (R70, R71). -/
def fieldOp (w : Word) : BitVec 4 := w.extractLsb' 0 4

/-- Field `RSV0 = w[7:4]`, reserved, must be 0 (R70). -/
def fieldRsv0 (w : Word) : BitVec 4 := w.extractLsb' 4 4

/-- Field `S = w[8]`, the sign immediate `y_is_odd` (R72). -/
def fieldS (w : Word) : Bool := w.getLsbD 8

/-- Field `RSV1 = w[31:9]`, reserved, must be 0 (R70). -/
def fieldRsv1 (w : Word) : BitVec 23 := w.extractLsb' 9 23

/-- Why a word is no command (R76). The machine keeps no trace of the reason: every illegal word has the one
effect of R39. The names serve the reader of the decoder only (DESIGN CHOICE, log entry 15). -/
inductive DecodeError where
  /-- `w[31:9] != 0` or `w[7:4] != 0`. Raised by `decode`. -/
  | reservedBits
  /-- `w[8] = 1` with an operation code other than `DECOMPRESS`'s. Raised by `decode`. -/
  | signNotTaken
  /-- `w[3:0]` is `0x0` or in `0x5..0xF`. Raised by `decode`. -/
  | reservedOp
  deriving DecidableEq, Repr

/-- `Decode(w)` (R75): the checks in the rule's own order. It looks at the word only. -/
def decode (w : Word) : Except DecodeError Instr :=
  if fieldRsv1 w ≠ 0 ∨ fieldRsv0 w ≠ 0 then .error .reservedBits
  else if fieldOp w = 0x1 then .ok (.decompress (fieldS w))
  else if fieldS w = true then .error .signNotTaken
  else if fieldOp w = 0x2 then .ok .decompact
  else if fieldOp w = 0x3 then .ok .compress
  else if fieldOp w = 0x4 then .ok .compact
  else .error .reservedOp

/-- The instruction the decoder reads from an opcode-table word: a command is the one 32-bit data word of a `CMD`
write (R70, R77), so bit `n` of the table is bit `n` of the word, and a longer row is no command of the PDE. -/
def decodeTableWord (nbits w : Nat) : Option Instr :=
  if nbits ≤ 32 then (decode (BitVec.ofNat 32 (w % 2 ^ nbits))).toOption else none

/-- One row of the opcode map: a word selects it when `(w AND mask) = match` (R74). -/
structure OpcodeRow where
  /-- The row's `match`. -/
  matchWord : Word
  /-- The row's `mask`. -/
  mask : Word
  deriving DecidableEq, Repr

/-- The row of R74 (and of spec/opcode_table.json) that a command stands in. -/
def Instr.row : Instr → OpcodeRow
  | .decompress _ => ⟨0x00000001, 0xFFFFFEFF⟩
  | .decompact => ⟨0x00000002, 0xFFFFFFFF⟩
  | .compress => ⟨0x00000003, 0xFFFFFFFF⟩
  | .compact => ⟨0x00000004, 0xFFFFFFFF⟩

/-- The sign immediate a command puts into its word: `S` for `DECOMPRESS`, 0 for the others (R72, R75). -/
def Instr.sign : Instr → Bool
  | .decompress s => s
  | .decompact => false
  | .compress => false
  | .compact => false

/-- The word of a command: the row's `match` with `S` in bit 8 (R74, R79: `0x00000001 + 0x100*s`). -/
def encode (i : Instr) : Word := i.row.matchWord ||| (if i.sign then 0x00000100 else 0)

end Sys2Proof
end

