-- ==== Sys2Proof/Machine/State.lean ====
section
/-! DEFINITION. The state of one PDE instance (rule R20), what stands around it in this model (the curve
descriptor, the moves still to come, the words reads have returned), and the reset state (R36). -/

namespace Sys2Proof.Machine

/-- `LAT_OP`, "one of the 4 commands" (R20). -/
inductive Op where
  | decompress
  | decompact
  | compress
  | compact
  deriving DecidableEq, Repr

/-- One move of an agent (R10). The order of a list of moves is the order in which the port and the engine take
them (R59, R60); where the engine's move stands in it is free, and every claim quantifies over it. -/
inductive Event where
  /-- The host's `RegRead(off)` (R52). -/
  | read (off : Nat)
  /-- The host's `RegWrite(off, w)` (R53). -/
  | write (off : Nat) (w : Word)
  /-- The engine's turn: `Complete` if it is enabled (R41), nothing otherwise. -/
  | engine
  /-- `rst` asserted and released (R170, R171). -/
  | reset
  deriving DecidableEq, Repr

/-- The four field registers of the window (R21, R22, R51). -/
inductive FieldReg where
  | xIn
  | yIn
  | xOut
  | yOut
  deriving DecidableEq, Repr

/-- What a word-aligned offset of the window selects (R51). -/
inductive Target where
  | cmd
  | status
  | cap
  | field (r : FieldReg) (j : Nat)
  | reserved
  deriving DecidableEq, Repr

/-- The tuple `(valid, xo, yo, sign)` that `Exec` returns (R42). -/
structure Result where
  valid : Bool
  xo : FieldBytes
  yo : FieldBytes
  sign : Bool
  deriving DecidableEq, Repr

/-- Why the machine stops with a fault: it never does. "The PDE has no fault state and no stuck state" (R154), so
the type has no constructor. -/
inductive Fault where
  deriving DecidableEq, Repr

/-- Why a step has no meaning. -/
inductive Refusal where
  /-- An instruction without a meaning yet, by its mnemonic. Raised by no arm of `exec` in this model. Safe. -/
  | notModelled (mnemonic : String)
  /-- A read or write at an offset that is not word-aligned or not inside `[0x000, 0x300)`: "refuse anything else
  (it is not a PDE access)" (R54, V4). Raised by `serve`. Safe: nothing can be proved of a run that makes one. -/
  | notPdeAccess (off : Nat)
  deriving DecidableEq, Repr

/-- The state. The first thirteen fields are the architectural state of R20, "and nothing else"; the last three
are the MODEL's own (log entries 1 and 2). -/
structure State where
  /-- Operand register `X_IN` (R21). -/
  xIn : FieldBytes
  /-- Operand register `Y_IN` (R21). -/
  yIn : FieldBytes
  /-- Result register `X_OUT` (R22). -/
  xOut : FieldBytes
  /-- Result register `Y_OUT` (R22). -/
  yOut : FieldBytes
  /-- `BUSY`, `STATUS[0]` (R24). -/
  busy : Bool
  /-- `DONE`, `STATUS[1]` (R25). -/
  done : Bool
  /-- `VALID`, `STATUS[2]` (R26). -/
  valid : Bool
  /-- `SIGN`, `STATUS[3]` (R27). -/
  sign : Bool
  /-- `ILL`, `STATUS[4]` (R28). -/
  ill : Bool
  /-- `LAT_OP`, hidden (R32). -/
  latOp : Op
  /-- `LAT_S`, hidden (R32). -/
  latS : Bool
  /-- `LAT_X`, hidden (R32). -/
  latX : FieldBytes
  /-- `LAT_Y`, hidden (R32). -/
  latY : FieldBytes
  /-- MODEL: the instance's constants (R35). No step changes them; they stand here because `step` has no other
  argument, so that a claim about every state is a claim about every instance. -/
  curve : Curve
  /-- MODEL: the moves of the host, the engine and reset that are still to come, first one first (R10). -/
  inputs : List Event
  /-- MODEL: the words `RegRead` has returned to the host, the latest first (R52). -/
  reads : List Word
  deriving DecidableEq, Repr

/-- The byte string `0^L` of an instance (R11). -/
def zeros (c : Curve) : FieldBytes := List.replicate c.len 0

/-- The reset state of the instance `c` with the moves `inputs` to come (R36, R170). The hidden latches are
"unspecified and unobservable"; the values here are the model's, DESIGN CHOICE (log entry 5). -/
def State.resetOf (c : Curve) (inputs : List Event) : State :=
  { xIn := zeros c, yIn := zeros c, xOut := zeros c, yOut := zeros c,
    busy := false, done := false, valid := false, sign := false, ill := false,
    latOp := .decompress, latS := false, latX := zeros c, latY := zeros c,
    curve := c, inputs := inputs, reads := [] }

/-- The machine right after reset (R36): the instance is the source's toy curve, DESIGN CHOICE (log entry 1), and
no move is waiting. -/
def State.reset : State := State.resetOf Curve.t97 []

end Sys2Proof.Machine
end

