-- ==== Sys2Proof/Machine/Operands.lean ====
section
/-! DEFINITION. Byte strings and their integers (R55), the lanes of a field register (R56), the registers by name,
and the latched operands of a command (R32). -/

namespace Sys2Proof.Machine

/-- `int(B)`: the big-endian value of a byte string, `B[0]` the most significant byte (R55). -/
def int (B : FieldBytes) : Nat := B.foldl (fun v byte => v * 256 + byte.toNat) 0

/-- The `n`-byte big-endian string of `v`: byte `i` is the digit of weight `256^(n-1-i)` (R55). -/
def bytesOf (n v : Nat) : FieldBytes :=
  (List.range n).map fun i => BitVec.ofNat 8 (v / 256 ^ (n - 1 - i))

/-- `NW = ceil(L / 4)`, the words one field register occupies (R6). -/
def nw (c : Curve) : Nat := (c.len + 3) / 4

/-- Byte `B[i]` of a field register "with `B[i]` taken as 0 for `i >= L`" (R56). -/
def byteAt (c : Curve) (B : FieldBytes) (i : Nat) : Byte := if i < c.len then B.getD i 0 else 0

/-- `word_j` of a field register: `B[4j]` in bits 7:0, `B[4j+3]` in bits 31:24 (R56). -/
def wordOf (c : Curve) (B : FieldBytes) (j : Nat) : Word :=
  byteAt c B (4 * j + 3) ++ byteAt c B (4 * j + 2) ++ byteAt c B (4 * j + 1) ++ byteAt c B (4 * j)

/-- Lane `k` of a port word, `w[8k+7:8k]` (R53). -/
def laneOf (w : Word) (k : Nat) : Byte := w.extractLsb' (8 * k) 8

/-- One lane of a port write: `if 4j+k < L then F[4j+k] <- w[8k+7:8k]` (R53). -/
def setLane (c : Curve) (j : Nat) (w : Word) (B : FieldBytes) (k : Nat) : FieldBytes :=
  if 4 * j + k < c.len then B.set (4 * j + k) (laneOf w k) else B

/-- A port write of word `j` of a field register: its four lanes, and no other byte (R53). -/
def setWord (c : Curve) (j : Nat) (w : Word) (B : FieldBytes) : FieldBytes :=
  [0, 1, 2, 3].foldl (setLane c j w) B

/-- The content of a field register by name. -/
def State.fieldReg (s : State) : FieldReg → FieldBytes
  | .xIn => s.xIn
  | .yIn => s.yIn
  | .xOut => s.xOut
  | .yOut => s.yOut

/-- The `LAT_OP` value of a command (R32). -/
def opOf : Instr → Op
  | .decompress _ => .decompress
  | .decompact => .decompact
  | .compress => .compress
  | .compact => .compact

/-- The command that the latches hold: `LAT_OP` with `LAT_S` (R32, R42). -/
def State.running (s : State) : Instr :=
  match s.latOp with
  | .decompress => .decompress s.latS
  | .decompact => .decompact
  | .compress => .compress
  | .compact => .compact

/-- Latching a command: `LAT_OP <- op ; LAT_S <- s ; LAT_X <- X_IN ; LAT_Y <- Y_IN` (R38). -/
def State.latch (i : Instr) (s : State) : State :=
  { s with latOp := opOf i, latS := i.sign, latX := s.xIn, latY := s.yIn }

end Sys2Proof.Machine
end

