-- ==== Sys2Proof/Machine/Field.lean ====
section
/-! DEFINITION. The field-element contract (R90 to R100): the primitives every command is built from, each by its
mathematical definition. A field element is a `Nat` in `[0, p)` (R90). -/

namespace Sys2Proof.Machine

/-- `fe_decode(B)` (R91): the value and the bit `ok`. When `int(B) >= p` the value is the rule's placeholder 0. -/
def feDecode (c : Curve) (B : FieldBytes) : Nat × Bool :=
  if int B < c.p then (int B, true) else (0, false)

/-- `fe_encode(v)` (R92): the `L`-byte string of `v`. -/
def feEncode (c : Curve) (v : Nat) : FieldBytes := bytesOf c.len v

/-- `add(u, v) = (u + v) mod p` (R93). -/
def add (c : Curve) (u v : Nat) : Nat := (u + v) % c.p

/-- `mul(u, v) = (u * v) mod p` (R94). -/
def mul (c : Curve) (u v : Nat) : Nat := (u * v) % c.p

/-- `neg(v) = (p - v) mod p` (R95). -/
def neg (c : Curve) (v : Nat) : Nat := (c.p - v) % c.p

/-- The least field element whose square is `v`, if there is one: the mathematical definition, by search (DESIGN
CHOICE, log entry 13; `residue_iff_powMod` decides the flag in a large field). -/
def leastRoot (c : Curve) (v : Nat) : Option Nat := (List.range c.p).find? fun t => mul c t t == v

/-- `sqrt(v)` (R96): a root and the exact residue flag. `root v` says which of the two roots of a residue the
backend returns and `fail v` what it leaves for a non-residue; the rule leaves both open, and the machine supplies
`Config.sqrtRoot` and `Config.sqrtFail`. -/
def sqrt (c : Curve) (root : Nat → Bool) (fail : Nat → Nat) (v : Nat) : Nat × Bool :=
  match leastRoot c v with
  | some t => (if root v then neg c t else t, true)
  | none => (fail v % c.p, false)

/-- `parity(v) = v mod 2`, "is odd" (R97). -/
def parity (v : Nat) : Bool := v % 2 == 1

/-- `select(u, v, c)`: `u` when `c = 1`, `v` when `c = 0` (R98; 90_conflicts.md C1). -/
def select (u v : Nat) (cond : Bool) : Nat := if cond then u else v

/-- `eq(u, v)` (R99). -/
def eq (u v : Nat) : Bool := u == v

/-- `le(u, v)`, as integers (R99). -/
def le (u v : Nat) : Bool := decide (u ≤ v)

/-- `rhs(x) = add(add(mul(mul(x, x), x), mul(a, x)), b)` (R100). -/
def rhs (c : Curve) (x : Nat) : Nat :=
  add c (add c (mul c (mul c x x) x) (mul c c.a x)) c.b

end Sys2Proof.Machine
end

