-- ==== Sys2Proof/Machine/Flags.lean ====
section
/-! DEFINITION. The flags: the words `STATUS` and `CAP` read as (R23, R31), and every way the flags change
(R38, R39, R41). -/

namespace Sys2Proof.Machine

/-- `STATUS` reads `zext_32(ILL*16 + SIGN*8 + VALID*4 + DONE*2 + BUSY)` (R23). -/
def statusWord (s : State) : Word :=
  BitVec.ofNat 32
    (s.ill.toNat * 16 + s.sign.toNat * 8 + s.valid.toNat * 4 + s.done.toNat * 2 + s.busy.toNat)

/-- `CAP` reads `zext_32(L*256 + COMPACT_DEFAULT*2 + COMPRESS_DEFAULT)` (R31). -/
def capWord (c : Curve) : Word :=
  BitVec.ofNat 32 (c.len * 256 + c.compactDefault.toNat * 2 + c.compressDefault.toNat)

/-- The flags once a legal command word is accepted (R38). -/
def State.flagsIssued (s : State) : State :=
  { s with busy := true, done := false, valid := false, sign := false, ill := false }

/-- The flags once an illegal command word is accepted (R39). -/
def State.flagsIllegal (s : State) : State :=
  { s with busy := false, done := true, valid := false, sign := false, ill := true }

/-- The flags at completion: `VALID` and `SIGN` receive the result's, `BUSY <- 0`, `DONE <- 1`, and `ILL` is not
written (R41). -/
def State.flagsCompleted (valid sign : Bool) (s : State) : State :=
  { s with busy := false, done := true, valid := valid, sign := sign }

end Sys2Proof.Machine
end

