-- ==== Sys2Proof/Machine/Ops.lean ====
section
/-! DEFINITION. The operations over the registers: the register window's reads and writes (R50 to R57), the engine's
three transitions (R38, R39, R41), the one shape of every failure (R151), and reset (R170).
The PDE has no memory (R50, R61), no trap entry (R157) and no trap return (R158): the outcome of misuse is the flag
update of `State.illegal`, and the outcome of failing operands is `failResult`. -/

namespace Sys2Proof.Machine

/-! ### The register window -/

/-- An offset the port can carry: word-aligned and inside `[0x000, 0x300)` (R50, R54). -/
def onPort (off : Nat) : Bool := off % 4 == 0 && decide (off < 0x300)

/-- The first offset of a field register (R51). -/
def baseOf : FieldReg → Nat
  | .xIn => 0x100
  | .yIn => 0x180
  | .xOut => 0x200
  | .yOut => 0x280

/-- The address map (R51). -/
def target (off : Nat) : Target :=
  if off = 0x000 then .cmd
  else if off = 0x004 then .status
  else if off = 0x008 then .cap
  else if off < 0x100 then .reserved
  else if off < 0x180 then .field .xIn ((off - 0x100) / 4)
  else if off < 0x200 then .field .yIn ((off - 0x180) / 4)
  else if off < 0x280 then .field .xOut ((off - 0x200) / 4)
  else if off < 0x300 then .field .yOut ((off - 0x280) / 4)
  else .reserved

/-- `RegRead(off)` (R52): the word returned. Words `j >= NW` and reserved offsets read as zero (R57). -/
def regRead (s : State) (off : Nat) : Word :=
  match target off with
  | .cmd => 0
  | .status => statusWord s
  | .cap => capWord s.curve
  | .field r j => if j < nw s.curve then wordOf s.curve (s.fieldReg r) j else 0
  | .reserved => 0

/-- `RegWrite(off, w)` at an offset other than `CMD`'s (R53): the operand registers take the word's lanes; every
other write is ignored silently. -/
def regStore (off : Nat) (w : Word) (s : State) : State :=
  match target off with
  | .field .xIn j => if j < nw s.curve then { s with xIn := setWord s.curve j w s.xIn } else s
  | .field .yIn j => if j < nw s.curve then { s with yIn := setWord s.curve j w s.yIn } else s
  | .field .xOut _ => s
  | .field .yOut _ => s
  | .cmd => s
  | .status => s
  | .cap => s
  | .reserved => s

/-- A read hands its word to the host and changes nothing of the PDE (R52, R58). -/
def State.returned (w : Word) (s : State) : State := { s with reads := w :: s.reads }

/-! ### The engine's transitions -/

/-- `X_OUT <- 0^L ; Y_OUT <- 0^L` (R38, R39). -/
def State.clearResults (s : State) : State := { s with xOut := zeros s.curve, yOut := zeros s.curve }

/-- Issue of a legal command, as one atomic step (R38). -/
def State.issue (i : Instr) (s : State) : State := ((s.latch i).clearResults).flagsIssued

/-- Issue of an illegal command word, as one atomic step (R39). Nothing is latched and nothing executes. -/
def State.illegal (s : State) : State := s.clearResults.flagsIllegal

/-- Completion, as one atomic step, with the result `r` of the running command (R41). The latches keep their content:
"when `BUSY = 0` their content is unobservable" (R32), DESIGN CHOICE (log entry 8). -/
def State.complete (r : Result) (s : State) : State :=
  { s with xOut := r.xo, yOut := r.yo }.flagsCompleted r.valid r.sign

/-- `fail`: "return `(valid = 0, xo = 0^L, yo = 0^L, sign = 0)`" (R12), the single failure mode (R151). -/
def failResult (c : Curve) : Result := { valid := false, xo := zeros c, yo := zeros c, sign := false }

/-- The life of the command `i` at the engine, one transition at a time. An idle engine accepts it (R38). The engine
that is executing it completes it, with the result `r` of its `Exec` (R41). An engine that is executing another
command is not disturbed (R40). That one function holds both transitions is a DESIGN CHOICE (log entry 10). -/
def runCommand (i : Instr) (r : Result) (s : State) : Host.Outcome State Fault Refusal :=
  if s.busy then
    if s.running = i then .next (s.complete r) else .next s
  else .next (s.issue i)

/-! ### Reset and the list of moves -/

/-- Reset (R170, R171): the reset state of the same instance, whatever was running; the words the host has already
read stay read, and the moves that follow stay to come (DEDUCED, log entry 11). -/
def State.toReset (s : State) : State := { State.resetOf s.curve s.inputs with reads := s.reads }

/-- The state once its first move is taken off the list. -/
def State.withInputs (es : List Event) (s : State) : State := { s with inputs := es }

end Sys2Proof.Machine
end

