-- ==== Sys2Proof/Machine/DecodeCommands.lean ====
section
/-! DEFINITION. The decode direction: `DECOMPRESS` (R110) and `DECOMPACT` (R120, R121). Each `…Result` is the rule's
pseudocode line by line over the draws `root` and `fail` of R96; each `exec…` is the command's life at the engine
with the machine's own draws. -/

namespace Sys2Proof.Machine

/-- `Exec_DECOMPRESS(xb, s)` (R110). -/
def decompressResult (c : Curve) (root : Nat → Bool) (fail : Nat → Nat) (xb : FieldBytes) (s : Bool) : Result :=
  let (x, ok1) := feDecode c xb
  let r := rhs c x
  let (y0, ok2) := sqrt c root fail r
  let y1 := neg c y0
  let cond := parity y0 == s
  let y := select y0 y1 cond
  if ok1 && ok2 then { valid := true, xo := feEncode c x, yo := feEncode c y, sign := false } else failResult c

/-- `Exec_DECOMPACT(xb)` (R120) with the convention of R121: the smaller of the two roots as integers. -/
def decompactResult (c : Curve) (root : Nat → Bool) (fail : Nat → Nat) (xb : FieldBytes) : Result :=
  let (x, ok1) := feDecode c xb
  let r := rhs c x
  let (y0, ok2) := sqrt c root fail r
  let y1 := neg c y0
  let cond := le y0 y1
  let y := select y0 y1 cond
  if ok1 && ok2 then { valid := true, xo := feEncode c x, yo := feEncode c y, sign := false } else failResult c

/-- `DECOMPRESS` (R38, R41, R42, R110): reads `LAT_X` and `LAT_S`. -/
def execDecompress (yIsOdd : Bool) (s : State) : Host.Outcome State Fault Refusal :=
  runCommand (.decompress yIsOdd)
    (decompressResult s.curve (Config.sqrtRoot s.curve) (Config.sqrtFail s.curve) s.latX s.latS) s

/-- `DECOMPACT` (R38, R41, R42, R120): reads `LAT_X`. -/
def execDecompact (s : State) : Host.Outcome State Fault Refusal :=
  runCommand .decompact
    (decompactResult s.curve (Config.sqrtRoot s.curve) (Config.sqrtFail s.curve) s.latX) s

end Sys2Proof.Machine
end

