-- ==== Sys2Proof/Machine/EncodeCommands.lean ====
section
/-! DEFINITION. The encode direction: the point check (R130), `COMPRESS` (R131) and `COMPACT` (R132). -/

namespace Sys2Proof.Machine

/-- `PointCheck(xb, yb)` (R130): the bit `okp`, and `x` and `y`. -/
def pointCheck (c : Curve) (xb yb : FieldBytes) : Bool × Nat × Nat :=
  let (x, okx) := feDecode c xb
  let (y, oky) := feDecode c yb
  let on := eq (mul c y y) (rhs c x)
  (okx && oky && on, x, y)

/-- `Exec_COMPRESS(xb, yb)` (R131). -/
def compressResult (c : Curve) (xb yb : FieldBytes) : Result :=
  let (okp, x, y) := pointCheck c xb yb
  if okp then { valid := true, xo := feEncode c x, yo := zeros c, sign := parity y } else failResult c

/-- `Exec_COMPACT(xb, yb)` (R132): a point whose `y` is not the smaller root is rejected. -/
def compactResult (c : Curve) (xb yb : FieldBytes) : Result :=
  let (okp, x, y) := pointCheck c xb yb
  let canon := le y (neg c y)
  if okp && canon then { valid := true, xo := feEncode c x, yo := zeros c, sign := false } else failResult c

/-- `COMPRESS` (R38, R41, R42, R131): reads `LAT_X` and `LAT_Y`. -/
def execCompress (s : State) : Host.Outcome State Fault Refusal :=
  runCommand .compress (compressResult s.curve s.latX s.latY) s

/-- `COMPACT` (R38, R41, R42, R132): reads `LAT_X` and `LAT_Y`. -/
def execCompact (s : State) : Host.Outcome State Fault Refusal :=
  runCommand .compact (compactResult s.curve s.latX s.latY) s

end Sys2Proof.Machine
end

