-- ==== Sys2Proof/Machine/Dispatch.lean ====
section
/-! DEFINITION. The meaning of each command: one direct call an arm. `exec i s` is the engine's next transition for
the command `i`: its issue when the engine is idle (R38), its completion when it is the running command (R41). -/

namespace Sys2Proof.Machine

def exec (i : Instr) (s : State) : Host.Outcome State Fault Refusal :=
  match i with
  | .decompress yIsOdd => Sys2Proof.Machine.execDecompress yIsOdd s
  | .decompact => Sys2Proof.Machine.execDecompact s
  | .compress => Sys2Proof.Machine.execCompress s
  | .compact => Sys2Proof.Machine.execCompact s

end Sys2Proof.Machine
end

