-- ==== Sys2Proof/Machine/Engine.lean ====
section
/-! DEFINITION. What one move does: the write to `CMD` (R38 to R40, R156), the engine's turn (R41), and the serving
of any move (R10, R52 to R54, R170). -/

namespace Sys2Proof.Machine

/-- `RegWrite(0x000, w)`, in the order of R156: first `BUSY` (the word is dropped undecoded, R40), then legality of
the word (R39), then the command's issue (R38). -/
def commandWrite (w : Word) (s : State) : Host.Outcome State Fault Refusal :=
  if s.busy then .next s
  else match decode w with
    | .ok i => exec i s
    | .error _ => .next s.illegal

/-- The engine's turn: `Complete` is enabled exactly when `BUSY = 1` (R10, R41); an idle engine does nothing
(R33). -/
def engineTurn (s : State) : Host.Outcome State Fault Refusal :=
  if s.busy then exec s.running s else .next s

/-- One move, taken in a state whose list holds the moves after it. An access the port cannot carry is refused (R54,
log entry 9). -/
def serve (e : Event) (s : State) : Host.Outcome State Fault Refusal :=
  match e with
  | .read off => if onPort off then .next (s.returned (regRead s off)) else .refused (.notPdeAccess off)
  | .write off w =>
    if onPort off then
      if off = 0x000 then commandWrite w s else .next (regStore off w s)
    else .refused (.notPdeAccess off)
  | .engine => engineTurn s
  | .reset => .next s.toReset

/-- The next move: the first of the list, and the engine's own turn once no other move is waiting (R41: the step "does
occur"; that it then occurs at once is a DESIGN CHOICE, log entry 7). -/
def nextMove (s : State) : Host.Outcome State Fault Refusal :=
  match s.inputs with
  | [] => engineTurn s
  | e :: es => serve e (s.withInputs es)

/-- The state in which the next move is the host's write of the command word `w` and the engine is ready to accept
it. -/
def State.withCommand (w : Word) (s : State) : State :=
  { s with busy := false, inputs := .write 0x000 w :: s.inputs }

end Sys2Proof.Machine
end

