-- ==== Sys2Proof/Machine/HostNotation.lean ====
section
/-! DEFINITION. The host's notation: the pseudo-statements of R79 as the register accesses they expand to (R78). -/

namespace Sys2Proof.Machine

/-- The accesses of a whole-register write: `for j = 0 .. NW-1: WR F[j], word_j(bytes)` (R79). -/
def loadField (c : Curve) (r : FieldReg) (bytes : FieldBytes) : List Event :=
  (List.range (nw c)).map fun j => .write (baseOf r + 4 * j) (wordOf c bytes j)

/-- `LDX bytes` (R79). -/
def ldx (c : Curve) (bytes : FieldBytes) : List Event := loadField c .xIn bytes

/-- `LDY bytes` (R79). -/
def ldy (c : Curve) (bytes : FieldBytes) : List Event := loadField c .yIn bytes

/-- `WR CMD, word` for a command (R79). -/
def issueCommand (i : Instr) : Event := .write 0x000 (encode i)

/-- `WAIT`, when `n` reads of `STATUS` find the engine busy before it takes its turn, and the next read ends the
loop (R79). The number of polls is the host's (log entry 12). -/
def waitAfter (n : Nat) : List Event := List.replicate n (.read 0x004) ++ [.engine, .read 0x004]

/-- The accesses of a whole-register read: `for j = 0 .. NW-1: RD F[j]` (R79). -/
def readField (c : Curve) (r : FieldReg) : List Event :=
  (List.range (nw c)).map fun j => .read (baseOf r + 4 * j)

/-- `RDX` (R79). -/
def rdx (c : Curve) : List Event := readField c .xOut

/-- `RDY` (R79). -/
def rdy (c : Curve) : List Event := readField c .yOut

end Sys2Proof.Machine
end

