-- ==== Sys2Proof/Safety.lean ====
section
/-! DEFINITION. What counts as a good state and a good run, in the terms the claims use: the invariants of R29, the
states a run can reach, points on the curve, and what of a state no access can show. -/

namespace Sys2Proof.Machine

/-- "A pair `(x, y)` of field elements is *on the curve* when `mul(y, y) = rhs(x)`" (R100). -/
def OnCurve (c : Curve) (x y : Nat) : Prop := x < c.p ∧ y < c.p ∧ mul c y y = rhs c x

/-- `v` is a quadratic residue, 0 included (R96 (i)). -/
def Residue (c : Curve) (v : Nat) : Prop := ∃ t, t < c.p ∧ mul c t t = v

/-- The engine is executing the command `i`: `BUSY = 1` and the latches hold it (R32, R41). -/
def State.Executing (i : Instr) (s : State) : Prop := s.busy = true ∧ s.running = i

/-- What every good state has: a legal instance (R5, R6), registers of exactly `L` bytes (R20; an invariant and not a
type, DESIGN CHOICE, log entry 16), and the six invariants of R29. -/
structure State.Inv (s : State) : Prop where
  curve_wf : s.curve.WellFormed
  xIn_len : s.xIn.length = s.curve.len
  yIn_len : s.yIn.length = s.curve.len
  xOut_len : s.xOut.length = s.curve.len
  yOut_len : s.yOut.length = s.curve.len
  latX_len : s.latX.length = s.curve.len
  latY_len : s.latY.length = s.curve.len
  /-- R29 (i). -/
  busy_clears : s.busy = true → s.done = false ∧ s.valid = false ∧ s.sign = false ∧ s.ill = false ∧
    s.xOut = zeros s.curve ∧ s.yOut = zeros s.curve
  /-- R29 (ii). -/
  valid_done : s.valid = true → s.done = true ∧ s.ill = false
  /-- R29 (iii). -/
  ill_done : s.ill = true → s.done = true ∧ s.valid = false
  /-- R29 (iv). -/
  invalid_empty : s.valid = false → s.sign = false ∧ s.xOut = zeros s.curve ∧ s.yOut = zeros s.curve
  /-- R29 (v). -/
  sign_valid : s.sign = true → s.valid = true ∧ s.yOut = zeros s.curve
  /-- R29 (vi). -/
  fresh_empty : s.done = false → s.busy = false → s.valid = false ∧ s.sign = false ∧ s.ill = false ∧
    s.xOut = zeros s.curve ∧ s.yOut = zeros s.curve

/-- A result that claims to be one is the x-coordinate of a point of the curve, canonically encoded: the codec is
"the sole gate enforcing this invariant" (R114, R130). -/
def State.ResultOnCurve (s : State) : Prop :=
  s.valid = true → (∃ y, OnCurve s.curve (int s.xOut) y) ∧ feEncode s.curve (int s.xOut) = s.xOut

/-- The states a run of the instance `c` can reach from reset, whatever moves were to come. -/
inductive Reachable (c : Curve) : State → Prop where
  | start (es : List Event) : Reachable c (State.resetOf c es)
  | next {s t : State} : Reachable c s → step s = .next t → Reachable c t

/-- `n` steps, stopping at the first refusal. -/
def steps : Nat → State → Host.Outcome State Fault Refusal
  | 0, s => .next s
  | n + 1, s =>
    match step s with
    | .next t => steps n t
    | .fault r => .fault r
    | .refused r => .refused r

/-- A move the port admits (R54): an engine's turn, a reset, or an access at an offset it can carry. -/
def Event.admitted : Event → Bool
  | .read off => onPort off
  | .write off _ => onPort off
  | .engine => true
  | .reset => true

/-- A host access the port admits. -/
def Event.hostAccess : Event → Bool
  | .read off => onPort off
  | .write off _ => onPort off
  | .engine => false
  | .reset => false

/-- The two states are the same but for the hidden latches, and those too are the same while a command runs: "when
`BUSY = 0` their content is unobservable" (R32). -/
def SameButIdleLatches (s t : State) : Prop :=
  t = { s with latOp := t.latOp, latS := t.latS, latX := t.latX, latY := t.latY } ∧ (s.busy = true → t = s)

/-- `s` on an instance that differs in the two capability markers only (R7). -/
def State.withMarkers (m1 m2 : Bool) (s : State) : State :=
  { s with curve := { s.curve with compressDefault := m1, compactDefault := m2 } }

end Sys2Proof.Machine
end

