-- ==== Sys2Proof/Certificates/Slice0/Obligations.lean ====
section
/-! DEFINITION. The statements for the provers. Each docstring names the rule it formalises; where a clause rests on a
choice of the model, it names the log entry. The fields `curve`, `inputs` and `reads` are the model's own throughout
(log entries 1 and 2): the instance, the moves to come, and the words that reads returned. -/

open Sys2Proof Sys2Proof.Machine

/-! ### Reset -/

/-- R36: what every register, and every word of the window that R36 names, holds after reset, on every instance and
whatever moves are to come. Of the hidden latches it says what the rule says: whatever they hold, no read shows it. -/
def Obligations.ResetStateIsEmpty : Prop :=
  ∀ (c : Curve) (es : List Event), let s := State.resetOf c es
    s.xIn = List.replicate c.len 0 ∧ s.yIn = List.replicate c.len 0 ∧
    s.xOut = List.replicate c.len 0 ∧ s.yOut = List.replicate c.len 0 ∧
    s.busy = false ∧ s.done = false ∧ s.valid = false ∧ s.sign = false ∧ s.ill = false ∧
    regRead s 0x004 = 0x00000000 ∧
    regRead s 0x008 =
      BitVec.ofNat 32 (c.len * 256 + c.compactDefault.toNat * 2 + c.compressDefault.toNat) ∧
    regRead s 0x000 = 0x00000000 ∧
    (∀ (op : Op) (b : Bool) (lx ly : FieldBytes) (off : Nat),
      regRead { s with latOp := op, latS := b, latX := lx, latY := ly } off = regRead s off)

/-- R170, R171: a reset, in any state and during any command, leaves the reset state of the same instance; the running
command is abandoned and nothing of it becomes visible. That the host keeps the words it has read and the moves it
still makes is the model's reading (log entry 11). -/
def Obligations.ResetAbandonsRunningCommand : Prop :=
  ∀ (s : State) (es : List Event), s.inputs = .reset :: es →
    ∃ t, step s = .next t ∧
      t.xIn = zeros s.curve ∧ t.yIn = zeros s.curve ∧ t.xOut = zeros s.curve ∧ t.yOut = zeros s.curve ∧
      t.busy = false ∧ t.done = false ∧ t.valid = false ∧ t.sign = false ∧ t.ill = false ∧
      t.curve = s.curve ∧ t.inputs = es ∧ t.reads = s.reads

/-- R172: nothing has to be initialised before the first command; issued straight after reset, it runs on the operands
`0^L`. -/
def Obligations.FirstCommandAfterResetRunsOnZeros : Prop :=
  ∀ (c : Curve) (i : Instr) (es : List Event),
    ∃ t, step (State.resetOf c (issueCommand i :: es)) = .next t ∧ t.Executing i ∧
      t.latX = List.replicate c.len 0 ∧ t.latY = List.replicate c.len 0 ∧ t.inputs = es

/-! ### The decoder -/

/-- R74, R75: exactly five of the `2^32` words are legal, and each decodes to its command with its sign bit. -/
def Obligations.ExactlyFiveWordsAreLegal : Prop :=
  ∀ (w : Word) (i : Instr), decode w = .ok i ↔
    (w = 0x00000001 ∧ i = .decompress false) ∨ (w = 0x00000101 ∧ i = .decompress true) ∨
    (w = 0x00000002 ∧ i = .decompact) ∨ (w = 0x00000003 ∧ i = .compress) ∨ (w = 0x00000004 ∧ i = .compact)

/-- R74: a word selects the row whose `(w AND mask) = match`; the rows are disjoint, a word that selects a row decodes
to a command of that row, and a word that selects none is illegal. -/
def Obligations.WordsSelectRowsOfOpcodeMap : Prop :=
  (∀ (w : Word) (i : Instr), decode w = .ok i → w &&& i.row.mask = i.row.matchWord) ∧
  (∀ (w : Word) (i : Instr), w &&& i.row.mask = i.row.matchWord → ∃ j, decode w = .ok j ∧ j.row = i.row) ∧
  (∀ (w : Word) (i j : Instr), w &&& i.row.mask = i.row.matchWord → w &&& j.row.mask = j.row.matchWord → i.row = j.row)

/-- R76: which words are illegal, and that one written to an idle engine is not executed, sets `STATUS` to
`0x00000012`, clears the results, and leaves the engine ready for the next command word. -/
def Obligations.IllegalWordsAndTheirEffect : Prop :=
  (∀ w : Word, (∃ e, decode w = .error e) ↔
    (w.toNat / 2 ^ 9 ≠ 0 ∨ w.toNat / 2 ^ 4 % 2 ^ 4 ≠ 0 ∨ w.toNat % 2 ^ 4 = 0 ∨ 5 ≤ w.toNat % 2 ^ 4 ∨
      ((w.toNat % 2 ^ 4 = 2 ∨ w.toNat % 2 ^ 4 = 3 ∨ w.toNat % 2 ^ 4 = 4) ∧ w.toNat / 2 ^ 8 % 2 = 1))) ∧
  (∀ (s : State) (w w' : Word) (i : Instr) (es : List Event), s.busy = false →
    s.inputs = .write 0x000 w :: .write 0x000 w' :: es → (∃ e, decode w = .error e) → decode w' = .ok i →
    ∃ t, step s = .next t ∧ regRead t 0x004 = 0x00000012 ∧ t.xOut = zeros s.curve ∧ t.yOut = zeros s.curve ∧
      t.xIn = s.xIn ∧ t.yIn = s.yIn ∧ ∃ u, step t = .next u ∧ u.Executing i)

/-- The decoder and the encoder agree (R70 to R75): every command decodes from its own word, and a word that decodes
is the encoding of what it decodes to, so no bit of a legal word is dropped. -/
def Obligations.DecodeAndEncodeAgree : Prop :=
  (∀ i : Instr, i.wellFormed = true → decode (encode i) = .ok i) ∧
  (∀ (w : Word) (i : Instr), decode w = .ok i → encode i = w)

/-- The five words of R74, written out from the encoding, and three reserved ones of `95_test_vectors.md` 2.1. -/
def Obligations.WordsOfTheEncodingDecode : Prop :=
  decode 0b00000000000000000000000000000001#32 = .ok (.decompress false) ∧
  decode 0b00000000000000000000000100000001#32 = .ok (.decompress true) ∧
  decode 0b00000000000000000000000000000010#32 = .ok .decompact ∧
  decode 0b00000000000000000000000000000011#32 = .ok .compress ∧
  decode 0b00000000000000000000000000000100#32 = .ok .compact ∧
  decode 0b00000000000000000000000100000010#32 = .error .signNotTaken ∧
  decode 0b00000000000000000000000000010001#32 = .error .reservedBits ∧
  decode 0b00000000000000000000000000000000#32 = .error .reservedOp

/-! ### Steps -/

/-- A step runs the decoded command: a legal word written to `CMD` of an idle engine (R38, R63) makes the step `exec`
of that command, in the state with the move taken off the list. -/
def Obligations.StepRunsTheDecodedCommand : Prop :=
  ∀ (s : State) (w : Word) (i : Instr) (es : List Event), s.busy = false → s.inputs = .write 0x000 w :: es →
    decode w = .ok i → step s = exec i { s with inputs := es }

/-- R10, R41: the engine's turn is `exec` of the command the latches hold if `BUSY = 1`, and nothing otherwise. That it
also comes at once when no other move is waiting is the model's choice (log entry 7). -/
def Obligations.EngineTurnRunsTheLatchedCommand : Prop :=
  ∀ (s : State) (es : List Event), (s.inputs = .engine :: es ∨ s.inputs = [] ∧ es = []) →
    (s.busy = true → step s = exec s.running { s with inputs := es }) ∧
    (s.busy = false → step s = .next { s with inputs := es })

/-- R40: a word written to `CMD` while `BUSY = 1` changes nothing, whatever the word is. -/
def Obligations.BusyEngineDropsCommandWord : Prop :=
  ∀ (s : State) (w : Word) (es : List Event), s.busy = true → s.inputs = .write 0x000 w :: es →
    step s = .next { s with inputs := es }

/-- R39: the whole effect of an illegal word on an idle engine, and the `STATUS` word read next. -/
def Obligations.IllegalWordClearsResults : Prop :=
  ∀ (s : State) (w : Word) (es : List Event), s.busy = false → s.inputs = .write 0x000 w :: es →
    (∃ e, decode w = .error e) →
    ∃ t, step s = .next t ∧ regRead t 0x004 = 0x00000012 ∧
      t = { s with inputs := es, xOut := zeros s.curve, yOut := zeros s.curve,
                   busy := false, done := true, valid := false, sign := false, ill := true }

/-- R38: the whole effect of the issue of a legal command, for all four commands, as the transition of the command
and as the step that takes the write of its word. -/
def Obligations.LegalCommandIsIssued : Prop :=
  ∀ (i : Instr) (s : State), s.busy = false →
    exec i s = .next { s with
      latOp := opOf i, latS := i.sign, latX := s.xIn, latY := s.yIn,
      xOut := zeros s.curve, yOut := zeros s.curve,
      busy := true, done := false, valid := false, sign := false, ill := false } ∧
    (∀ (w : Word) (es : List Event), s.inputs = .write 0x000 w :: es → decode w = .ok i →
      step s = .next { s with
        inputs := es, latOp := opOf i, latS := i.sign, latX := s.xIn, latY := s.yIn,
        xOut := zeros s.curve, yOut := zeros s.curve,
        busy := true, done := false, valid := false, sign := false, ill := false })

/-- R41, R42: completion writes the tuple of `Exec` of the latched command, in one step that is enabled whenever
`BUSY = 1`; a tuple that is not valid is empty. Two clauses are the model's choices: that an engine with no other move
waiting takes its turn at once (log entry 7), and that the hidden latches keep their content (log entry 8). -/
def Obligations.CompletionWritesTheResultOfExec : Prop :=
  ∀ (s : State) (es : List Event), s.busy = true → (s.inputs = .engine :: es ∨ s.inputs = [] ∧ es = []) →
    ∃ r : Result,
      r = (match s.latOp with
        | .decompress =>
          decompressResult s.curve (Config.sqrtRoot s.curve) (Config.sqrtFail s.curve) s.latX s.latS
        | .decompact => decompactResult s.curve (Config.sqrtRoot s.curve) (Config.sqrtFail s.curve) s.latX
        | .compress => compressResult s.curve s.latX s.latY
        | .compact => compactResult s.curve s.latX s.latY) ∧
      (r.valid = false → r.xo = zeros s.curve ∧ r.yo = zeros s.curve ∧ r.sign = false) ∧
      step s = .next { s with inputs := es, xOut := r.xo, yOut := r.yo, valid := r.valid, sign := r.sign,
                              busy := false, done := true }

/-- R79 (`WAIT`), R24: a command written to an idle engine, `n` polls while it runs, the engine's turn and a last poll.
The two transitions of the command are those of `exec`, the `n` polls read `0x00000001`, and the last one reads the
completed `STATUS`. -/
def Obligations.IssueThenWaitReadsCompletedStatus : Prop :=
  ∀ (s : State) (i : Instr) (n : Nat) (es : List Event), s.busy = false →
    s.inputs = issueCommand i :: waitAfter n ++ es →
    ∃ u v, exec i s = .next u ∧ exec i u = .next v ∧ v.busy = false ∧
      steps (n + 3) s =
        .next { v with inputs := es, reads := statusWord v :: (List.replicate n 0x00000001 ++ s.reads) }

/-! ### The four commands -/

/-- R110 to R112: the running `DECOMPRESS` completes, for every x-coordinate of the curve, with the root of the parity
asked for (and with 0 when the roots are 0), and changes nothing else. That the hidden latches keep their content is
the model's choice (log entry 8). -/
def Obligations.DecompressReturnsRootOfAskedParity : Prop :=
  ∀ (s : State) (b : Bool) (y : Nat), s.curve.WellFormed → s.Executing (.decompress b) →
    s.latX.length = s.curve.len → OnCurve s.curve (int s.latX) y → (y % 2 = b.toNat ∨ y = 0) →
    exec (.decompress b) s = .next { s with xOut := s.latX, yOut := feEncode s.curve y, valid := true, sign := false,
                                            busy := false, done := true }

/-- R120, R121: the running `DECOMPACT` completes, for every x-coordinate of the curve, with the root in
`0 .. (p-1)/2`, and changes nothing else. That the hidden latches keep their content is the model's choice (log
entry 8). -/
def Obligations.DecompactReturnsSmallerRoot : Prop :=
  ∀ (s : State) (y : Nat), s.curve.WellFormed → s.Executing .decompact →
    s.latX.length = s.curve.len → OnCurve s.curve (int s.latX) y → y ≤ (s.curve.p - 1) / 2 →
    exec .decompact s = .next { s with xOut := s.latX, yOut := feEncode s.curve y, valid := true, sign := false,
                                       busy := false, done := true }

/-- R130, R131: the running `COMPRESS` completes, for every valid point, with the x-coordinate and the parity of y, and
changes nothing else. That the hidden latches keep their content is the model's choice (log entry 8). -/
def Obligations.CompressReturnsXAndParity : Prop :=
  ∀ s : State, s.curve.WellFormed → s.Executing .compress → s.latX.length = s.curve.len →
    OnCurve s.curve (int s.latX) (int s.latY) →
    exec .compress s = .next { s with xOut := s.latX, yOut := zeros s.curve, valid := true,
                                      sign := decide (int s.latY % 2 = 1), busy := false, done := true }

/-- R130, R132: the running `COMPACT` completes, for every valid point whose y is the smaller root, with the
x-coordinate alone, and changes nothing else. That the hidden latches keep their content is the model's choice (log
entry 8). -/
def Obligations.CompactReturnsX : Prop :=
  ∀ s : State, s.curve.WellFormed → s.Executing .compact → s.latX.length = s.curve.len →
    OnCurve s.curve (int s.latX) (int s.latY) → int s.latY ≤ (s.curve.p - 1) / 2 →
    exec .compact s = .next { s with xOut := s.latX, yOut := zeros s.curve, valid := true, sign := false,
                                     busy := false, done := true }

/-- R151: the causes of `FAIL` of each command, and that every one of them leaves the same state, bit for bit: nothing
records which cause it was. That the hidden latches keep their content is the model's choice (log entry 8). -/
def Obligations.FailureHasOneShape : Prop :=
  ∀ (s : State) (i : Instr), s.curve.WellFormed → s.Executing i → s.latX.length = s.curve.len →
    ∃ t, exec i s = .next t ∧
      (t.valid = false ↔
        match i with
        | .decompress _ => s.curve.p ≤ int s.latX ∨ ¬ Residue s.curve (rhs s.curve (int s.latX))
        | .decompact => s.curve.p ≤ int s.latX ∨ ¬ Residue s.curve (rhs s.curve (int s.latX))
        | .compress => s.curve.p ≤ int s.latX ∨ s.curve.p ≤ int s.latY ∨
            mul s.curve (int s.latY) (int s.latY) ≠ rhs s.curve (int s.latX)
        | .compact => s.curve.p ≤ int s.latX ∨ s.curve.p ≤ int s.latY ∨
            mul s.curve (int s.latY) (int s.latY) ≠ rhs s.curve (int s.latX) ∨ (s.curve.p - 1) / 2 < int s.latY) ∧
      (t.valid = false →
        t = { s with xOut := zeros s.curve, yOut := zeros s.curve, valid := false, sign := false,
                     busy := false, done := true })

/-- R111: the result of `DECOMPRESS` does not depend on the root the backend returns (nor on what it leaves for a
non-residue), and is the function of `(xb, s)` the rule restates it as. -/
def Obligations.DecompressDoesNotDependOnBackendRoot : Prop :=
  ∀ (c : Curve) (xb : FieldBytes) (s : Bool) (root root' : Nat → Bool) (fail fail' : Nat → Nat), c.WellFormed →
    xb.length = c.len →
    decompressResult c root fail xb s = decompressResult c root' fail' xb s ∧
    ((decompressResult c root fail xb s).valid = true ↔ int xb < c.p ∧ Residue c (rhs c (int xb))) ∧
    (∀ y, OnCurve c (int xb) y → rhs c (int xb) ≠ 0 → parity y = s →
      (decompressResult c root fail xb s).yo = feEncode c y) ∧
    (int xb < c.p → rhs c (int xb) = 0 → (decompressResult c root fail xb s).yo = feEncode c 0)

/-- R122: the result of `DECOMPACT` does not depend on the root the backend returns, and is the function of `xb` the
rule restates it as. -/
def Obligations.DecompactDoesNotDependOnBackendRoot : Prop :=
  ∀ (c : Curve) (xb : FieldBytes) (root root' : Nat → Bool) (fail fail' : Nat → Nat), c.WellFormed →
    xb.length = c.len →
    decompactResult c root fail xb = decompactResult c root' fail' xb ∧
    ((decompactResult c root fail xb).valid = true ↔ int xb < c.p ∧ Residue c (rhs c (int xb))) ∧
    (∀ y, OnCurve c (int xb) y → y ≤ (c.p - 1) / 2 → (decompactResult c root fail xb).yo = feEncode c y)

/-- R112: on a point of order 2 both sign bits succeed and return the same point `(x, 0)`, whose `y` is even although
`S = 1` asked for an odd one. -/
def Obligations.DecompressOfOrderTwoPointIgnoresSign : Prop :=
  ∀ (s : State) (b : Bool), s.curve.WellFormed → s.Executing (.decompress b) → s.latX.length = s.curve.len →
    int s.latX < s.curve.p → rhs s.curve (int s.latX) = 0 →
    ∃ t, exec (.decompress b) s = .next t ∧ t.valid = true ∧ t.xOut = s.latX ∧ t.yOut = zeros s.curve ∧
      int t.yOut % 2 = 0

/-- R114, R123: every successful `DECOMPRESS` and `DECOMPACT` returns a pair of canonical encodings of a point of the
curve, whose x is the operand's, and `DECOMPACT` returns the lower root only. -/
def Obligations.DecodedPointsLieOnTheCurve : Prop :=
  ∀ (s : State) (i : Instr), s.curve.WellFormed → s.Executing i → s.latX.length = s.curve.len →
    ((∃ b, i = .decompress b) ∨ i = .decompact) →
    ∃ t, exec i s = .next t ∧ (t.valid = true →
      OnCurve s.curve (int t.xOut) (int t.yOut) ∧ t.xOut = s.latX ∧
      (i = .decompact → int t.yOut ≤ (s.curve.p - 1) / 2))

/-- R124: `DECOMPACT` returns the point `DECOMPRESS` returns for the parity of the canonical root, and the other
`DECOMPRESS` result is its negative. -/
def Obligations.DecompactIsOneOfTheDecompressResults : Prop :=
  ∀ (c : Curve) (xb : FieldBytes) (root : Nat → Bool) (fail : Nat → Nat), c.WellFormed → xb.length = c.len →
    (decompactResult c root fail xb).valid = true →
    ∃ y, OnCurve c (int xb) y ∧ y ≤ (c.p - 1) / 2 ∧
      decompactResult c root fail xb = decompressResult c root fail xb (parity y) ∧
      (decompactResult c root fail xb).yo = feEncode c y ∧
      (decompressResult c root fail xb (!parity y)).valid = true ∧
      (decompressResult c root fail xb (!parity y)).xo = xb ∧
      (decompressResult c root fail xb (!parity y)).yo = feEncode c (neg c y)

/-- R150: the four outcomes of a write to `CMD`, told apart by `STATUS` once the engine has had its turn: `DROPPED`
changes no word of the window, `ILLEGAL` and `FAIL` leave nothing but their `STATUS` value, and `OK` the result of the
command. -/
def Obligations.CommandWriteHasFourOutcomes : Prop :=
  ∀ (s : State) (w : Word) (es : List Event), s.Inv → s.inputs = .write 0x000 w :: .engine :: es →
    (s.busy = true → ∃ t, step s = .next t ∧ (∀ off, regRead t off = regRead s off) ∧
      t.xOut = s.xOut ∧ t.yOut = s.yOut) ∧
    (s.busy = false → ∃ t, steps 2 s = .next t ∧ t.busy = false ∧
      (∀ e, decode w = .error e → regRead t 0x004 = 0x00000012 ∧
        t.xOut = zeros s.curve ∧ t.yOut = zeros s.curve ∧ t.sign = false) ∧
      (∀ i, decode w = .ok i → t.valid = true → t.xOut = s.xIn ∧
        regRead t 0x004 = (if i = .compress ∧ int s.yIn % 2 = 1 then 0x0000000E else 0x00000006)) ∧
      (∀ i, decode w = .ok i → t.valid = false → regRead t 0x004 = 0x00000002 ∧
        t.xOut = zeros s.curve ∧ t.yOut = zeros s.curve ∧ t.sign = false))

/-- The frame of all four commands (R21, R35, R38, R41): no command changes its operands, the instance or the host's
side, and no word of the window but `STATUS` and the result registers reads differently after it. At completion
`ILL` is unchanged too, and so are the latches, of which the rules say only that nobody can tell (log entry 8). -/
def Obligations.CommandsChangeOnlyFlagsAndResults : Prop :=
  ∀ (i : Instr) (s t : State), exec i s = .next t →
    t.xIn = s.xIn ∧ t.yIn = s.yIn ∧ t.curve = s.curve ∧ t.inputs = s.inputs ∧ t.reads = s.reads ∧
    (∀ off, off ≠ 0x004 → ¬ (0x200 ≤ off ∧ off < 0x300) → regRead t off = regRead s off) ∧
    (s.busy = true → t.latOp = s.latOp ∧ t.latS = s.latS ∧ t.latX = s.latX ∧ t.latY = s.latY ∧ t.ill = s.ill)

/-! ### The register window -/

/-- R52: the word a read returns at every offset, and that a read changes no state. -/
def Obligations.RegReadTable : Prop :=
  (∀ (s : State) (off : Nat) (es : List Event), off % 4 = 0 → off < 0x300 → s.inputs = .read off :: es →
    step s = .next { s with inputs := es, reads := regRead s off :: s.reads }) ∧
  (∀ s : State, s.curve.WellFormed →
    regRead s 0x000 = 0x00000000 ∧
    regRead s 0x004 = BitVec.ofNat 32
      (s.ill.toNat * 16 + s.sign.toNat * 8 + s.valid.toNat * 4 + s.done.toNat * 2 + s.busy.toNat) ∧
    regRead s 0x008 = BitVec.ofNat 32
      (s.curve.len * 256 + s.curve.compactDefault.toNat * 2 + s.curve.compressDefault.toNat) ∧
    (∀ j, j < nw s.curve →
      regRead s (0x100 + 4 * j) = wordOf s.curve s.xIn j ∧ regRead s (0x180 + 4 * j) = wordOf s.curve s.yIn j ∧
      regRead s (0x200 + 4 * j) = wordOf s.curve s.xOut j ∧ regRead s (0x280 + 4 * j) = wordOf s.curve s.yOut j) ∧
    (∀ off, off % 4 = 0 → off < 0x300 → off ≠ 0x004 → off ≠ 0x008 →
      (∀ j, j < nw s.curve → off ≠ 0x100 + 4 * j ∧ off ≠ 0x180 + 4 * j ∧ off ≠ 0x200 + 4 * j ∧ off ≠ 0x280 + 4 * j) →
      regRead s off = 0x00000000))

/-- R53: what a write does at every offset: a command's issue at `CMD`, the lanes of one word of an operand register
and no other byte of it, and nothing anywhere else. -/
def Obligations.RegWriteTable : Prop :=
  ∀ (s : State) (off : Nat) (w : Word) (es : List Event), s.Inv → off % 4 = 0 → off < 0x300 →
    s.inputs = .write off w :: es →
    (off = 0x000 → step s = commandWrite w { s with inputs := es }) ∧
    (∀ j, j < nw s.curve → off = 0x100 + 4 * j → ∃ B, step s = .next { s with inputs := es, xIn := B } ∧
      B.length = s.curve.len ∧
      ∀ i, i < s.curve.len → B.getD i 0 = if i / 4 = j then w.extractLsb' (8 * (i % 4)) 8 else s.xIn.getD i 0) ∧
    (∀ j, j < nw s.curve → off = 0x180 + 4 * j → ∃ B, step s = .next { s with inputs := es, yIn := B } ∧
      B.length = s.curve.len ∧
      ∀ i, i < s.curve.len → B.getD i 0 = if i / 4 = j then w.extractLsb' (8 * (i % 4)) 8 else s.yIn.getD i 0) ∧
    (off ≠ 0x000 → (∀ j, j < nw s.curve → off ≠ 0x100 + 4 * j ∧ off ≠ 0x180 + 4 * j) →
      step s = .next { s with inputs := es })

/-- R57: reserved offsets, the words from `NW` on and the padding lanes of a field register read as zero; the reserved
bits of `STATUS` and `CAP` read as zero; writes there change nothing; and an access to a reserved offset completes
like any other. -/
def Obligations.ReservedSpaceReadsZeroAndIgnoresWrites : Prop :=
  ∀ s : State, s.curve.WellFormed →
    (∀ off, 0x00C ≤ off → off < 0x100 → off % 4 = 0 → regRead s off = 0 ∧ ∀ w, regStore off w s = s) ∧
    (∀ (r : FieldReg) (j : Nat), nw s.curve ≤ j → j < 32 →
      regRead s (baseOf r + 4 * j) = 0 ∧ ∀ w, regStore (baseOf r + 4 * j) w s = s) ∧
    (∀ (r : FieldReg) (j k : Nat), j < nw s.curve → k < 4 → s.curve.len ≤ 4 * j + k →
      laneOf (regRead s (baseOf r + 4 * j)) k = 0 ∧
      ∀ w w', (∀ k' < 4, k' ≠ k → laneOf w k' = laneOf w' k') →
        regStore (baseOf r + 4 * j) w s = regStore (baseOf r + 4 * j) w' s) ∧
    (∀ n, 5 ≤ n → (regRead s 0x004).getLsbD n = false) ∧
    (∀ n, 2 ≤ n → (n < 8 ∨ 16 ≤ n) → (regRead s 0x008).getLsbD n = false) ∧
    (∀ w, regStore 0x004 w s = s ∧ regStore 0x008 w s = s) ∧
    (∀ off es, 0x00C ≤ off → off < 0x100 → off % 4 = 0 →
      (s.inputs = .read off :: es → step s = .next { s with inputs := es, reads := 0 :: s.reads }) ∧
      (∀ w, s.inputs = .write off w :: es → step s = .next { s with inputs := es }))

/-- R54: an offset that is not word-aligned or lies outside the window is no PDE access and is refused; an access the
port can carry never is. The refusal's name is the model's. -/
def Obligations.OnlyPdeAccessesAreAdmitted : Prop :=
  ∀ (s : State) (off : Nat) (w : Word) (es : List Event),
    (s.inputs = .read off :: es ∨ s.inputs = .write off w :: es) →
    ((off % 4 ≠ 0 ∨ 0x300 ≤ off) → step s = .refused (.notPdeAccess off)) ∧
    (off % 4 = 0 → off < 0x300 → ∃ t, step s = .next t)

/-- R55, R56: the lanes of a word and the value of a byte string, with the rule's own examples. -/
def Obligations.LanesAndByteOrder : Prop :=
  (∀ (c : Curve) (B : FieldBytes) (j : Nat), B.length = c.len →
    (wordOf c B j).toNat = (B.getD (4 * j) 0).toNat + (B.getD (4 * j + 1) 0).toNat * 2 ^ 8 +
      (B.getD (4 * j + 2) 0).toNat * 2 ^ 16 + (B.getD (4 * j + 3) 0).toNat * 2 ^ 24) ∧
  (∀ (b : Byte) (B : FieldBytes), int (b :: B) = b.toNat * 256 ^ B.length + int B) ∧
  int [] = 0 ∧
  (∀ c : Curve, c.len = 5 → wordOf c [0x01, 0x02, 0x03, 0x04, 0x05] 0 = 0x04030201 ∧
    wordOf c [0x01, 0x02, 0x03, 0x04, 0x05] 1 = 0x00000005) ∧
  (∀ c : Curve, c.len = 2 → wordOf c [0x12, 0x34] 0 = 0x00003412) ∧ int [0x12, 0x34] = 0x1234

/-- R79 (`LDX`, `LDY`): the word writes of a whole operand leave exactly that operand in the register, and change
nothing else, whatever the engine is doing. -/
def Obligations.LoadSequenceWritesTheOperand : Prop :=
  ∀ (s : State) (bytes : FieldBytes) (es : List Event), s.Inv → bytes.length = s.curve.len →
    (s.inputs = ldx s.curve bytes ++ es → steps (nw s.curve) s = .next { s with inputs := es, xIn := bytes }) ∧
    (s.inputs = ldy s.curve bytes ++ es → steps (nw s.curve) s = .next { s with inputs := es, yIn := bytes })

/-- R9, R35: no step changes the instance, so `CAP` reads the same word before and after every step. -/
def Obligations.StepsKeepTheInstance : Prop :=
  ∀ s t : State, step s = .next t → t.curve = s.curve ∧ regRead t 0x008 = regRead s 0x008

/-! ### Invariants -/

/-- The invariant holds at the reset state of every legal instance, the model's own reset state among them. That the
latter is the toy curve's is the model's choice (log entry 1). -/
def Obligations.InvariantHoldsAtReset : Prop :=
  (∀ (c : Curve) (es : List Event), c.WellFormed → (State.resetOf c es).Inv) ∧ State.reset.Inv

/-- Every step keeps the invariant: the instance legal, every register exactly `L` bytes, and the six relations
between the flags and the results (R20, R29). -/
def Obligations.EveryStepKeepsTheInvariant : Prop :=
  ∀ s t : State, s.Inv → step s = .next t → t.Inv

/-- R29: the six relations, in every state that any run of any legal instance reaches. -/
def Obligations.ReachableFlagsDescribeTheLastCommand : Prop :=
  ∀ (c : Curve) (s : State), c.WellFormed → Reachable c s →
    (s.busy = true → s.done = false ∧ s.valid = false ∧ s.sign = false ∧ s.ill = false ∧
      s.xOut = zeros c ∧ s.yOut = zeros c) ∧
    (s.valid = true → s.done = true ∧ s.ill = false) ∧
    (s.ill = true → s.done = true ∧ s.valid = false) ∧
    (s.valid = false → s.sign = false ∧ s.xOut = zeros c ∧ s.yOut = zeros c) ∧
    (s.sign = true → s.valid = true ∧ s.yOut = zeros c) ∧
    (s.done = false → s.busy = false → s.valid = false ∧ s.sign = false ∧ s.ill = false ∧
      s.xOut = zeros c ∧ s.yOut = zeros c)

/-- R114, R130: every step keeps "a valid result is the canonical encoding of the x-coordinate of a point of the
curve": nothing the PDE emits describes an off-curve pair. -/
def Obligations.EveryStepKeepsValidResultsOnTheCurve : Prop :=
  ∀ s t : State, s.Inv → s.ResultOnCurve → step s = .next t → t.ResultOnCurve

/-- R23: the layout of `STATUS`, the only values it can take, that reading it has no side effect and that a write to
it is ignored. -/
def Obligations.StatusLayoutAndValues : Prop :=
  (∀ s : State, regRead s 0x004 = BitVec.ofNat 32
    (s.ill.toNat * 16 + s.sign.toNat * 8 + s.valid.toNat * 4 + s.done.toNat * 2 + s.busy.toNat)) ∧
  (∀ s : State, s.Inv →
    regRead s 0x004 = 0x00 ∨ regRead s 0x004 = 0x01 ∨ regRead s 0x004 = 0x02 ∨ regRead s 0x004 = 0x06 ∨
      regRead s 0x004 = 0x0E ∨ regRead s 0x004 = 0x12) ∧
  (∀ (s : State) (es : List Event), s.inputs = .read 0x004 :: es →
    step s = .next { s with inputs := es, reads := regRead s 0x004 :: s.reads }) ∧
  (∀ (s : State) (w : Word) (es : List Event), s.inputs = .write 0x004 w :: es →
    step s = .next { s with inputs := es })

/-! ### The machine as a whole -/

/-- R154: there is no fault state and no stuck state: in every state every move the port admits has an effect, the
engine's turn is enabled whenever it runs a command, and no step ends in a fault. -/
def Obligations.NoFaultAndNoStuckState : Prop :=
  (∀ (s : State) (f : Fault), step s ≠ .fault f) ∧
  (∀ s : State, (∀ e es, s.inputs = e :: es → e.admitted = true) → ∃ t, step s = .next t) ∧
  (∀ (s : State) (es : List Event), s.busy = true → s.inputs = .engine :: es →
    ∃ t, step s = .next t ∧ t.busy = false ∧ t.done = true)

/-- R180: an accepted command completes, whatever the host does meanwhile, unless reset ends it: within one step more
than there are moves waiting, `BUSY` is 0 and `DONE` is 1. The bound rests on the model's choice of log entry 7: the
engine takes its turn at the latest when no other move is waiting. -/
def Obligations.AcceptedCommandCompletes : Prop :=
  ∀ s : State, s.busy = true → (∀ e ∈ s.inputs, e.admitted = true ∧ e ≠ .reset) →
    ∃ n t, n ≤ s.inputs.length + 1 ∧ steps n s = .next t ∧ t.busy = false ∧ t.done = true

/-- R32: while `BUSY = 0` the content of the hidden latches is unobservable: two states that differ in them alone read
the same at every offset, and their steps again differ in them alone. -/
def Obligations.IdleLatchesAreUnobservable : Prop :=
  ∀ s s' : State, SameButIdleLatches s s' →
    (∀ off, regRead s' off = regRead s off) ∧
    (∀ t, step s = .next t → ∃ t', step s' = .next t' ∧ SameButIdleLatches t t')

/-- R7, R31: the capability markers change nothing but the word read from `CAP`: the step of an instance with other
markers is the same step, on results, flags, latches and the host's side, but for that word. -/
def Obligations.MarkersChangeOnlyTheCapWord : Prop :=
  ∀ (s t : State) (m1 m2 : Bool), s.Inv → step s = .next t →
    ∃ rs, step (s.withMarkers m1 m2) = .next { t.withMarkers m1 m2 with reads := rs } ∧
      ((∀ es, s.inputs ≠ .read 0x008 :: es) → rs = t.reads)

/-- R37, R32: the result of a command is a function of the accepted word and of `X_IN` and `Y_IN` at that moment, and
of nothing else: not of earlier results, not of the markers, and not of the accesses, writes to `X_IN`, `Y_IN` and
`CMD` among them, that the host makes while the command runs. -/
def Obligations.ResultIsFixedAtIssue : Prop :=
  ∀ (s s' : State) (w : Word) (i : Instr) (as as' es es' : List Event), s.Inv → s'.Inv →
    (∃ m1 m2, s'.curve = { s.curve with compressDefault := m1, compactDefault := m2 }) →
    s.busy = false → s'.busy = false → decode w = .ok i → s.xIn = s'.xIn → s.yIn = s'.yIn →
    s.inputs = .write 0x000 w :: as ++ .engine :: es → s'.inputs = .write 0x000 w :: as' ++ .engine :: es' →
    (∀ e ∈ as, e.hostAccess = true) → (∀ e ∈ as', e.hostAccess = true) →
    ∃ t t', steps (as.length + 2) s = .next t ∧ steps (as'.length + 2) s' = .next t' ∧
      t.busy = false ∧ t.done = true ∧ t'.busy = false ∧ t'.done = true ∧
      t.valid = t'.valid ∧ t.sign = t'.sign ∧ t.xOut = t'.xOut ∧ t.yOut = t'.yOut

/-- R21, R22, R177: of the moves taken while the engine is idle, only a write to `CMD` and reset touch the results, and
in every state only a write to an operand register and reset touch the operands. -/
def Obligations.ResultsAndOperandsPersist : Prop :=
  ∀ (s t : State) (e : Event) (es : List Event), s.inputs = e :: es → step s = .next t → e ≠ .reset →
    (s.busy = false → (∀ w, e ≠ .write 0x000 w) →
      t.xOut = s.xOut ∧ t.yOut = s.yOut ∧ t.valid = s.valid ∧ t.sign = s.sign ∧ t.done = s.done ∧ t.ill = s.ill) ∧
    ((∀ off w, e = .write off w → ¬ (0x100 ≤ off ∧ off < 0x180)) → t.xIn = s.xIn) ∧
    ((∀ off w, e = .write off w → ¬ (0x180 ≤ off ∧ off < 0x200)) → t.yIn = s.yIn)

/-! ### Round trips -/

/-- R134 (a): `decompress(compress(P)) == P` for every point of the curve, through the two transitions of each
command. -/
def Obligations.DecompressInvertsCompress : Prop :=
  ∀ (s : State) (x y : Nat), s.curve.WellFormed → s.busy = false → OnCurve s.curve x y →
    s.xIn = feEncode s.curve x → s.yIn = feEncode s.curve y →
    ∃ s1 s2 s3 s4, exec .compress s = .next s1 ∧ exec .compress s1 = .next s2 ∧
      s2.valid = true ∧ s2.xOut = feEncode s.curve x ∧ s2.yOut = zeros s.curve ∧ s2.sign = decide (y % 2 = 1) ∧
      exec (.decompress s2.sign) { s2 with xIn := s2.xOut } = .next s3 ∧
      exec (.decompress s2.sign) s3 = .next s4 ∧
      s4.valid = true ∧ s4.xOut = feEncode s.curve x ∧ s4.yOut = feEncode s.curve y

/-- R134 (b): `decompact(compact(P)) == P` for every point whose y satisfies the compaction convention. -/
def Obligations.DecompactInvertsCompact : Prop :=
  ∀ (s : State) (x y : Nat), s.curve.WellFormed → s.busy = false → OnCurve s.curve x y →
    y ≤ (s.curve.p - 1) / 2 → s.xIn = feEncode s.curve x → s.yIn = feEncode s.curve y →
    ∃ s1 s2 s3 s4, exec .compact s = .next s1 ∧ exec .compact s1 = .next s2 ∧
      s2.valid = true ∧ s2.xOut = feEncode s.curve x ∧ s2.yOut = zeros s.curve ∧
      exec .decompact { s2 with xIn := s2.xOut } = .next s3 ∧ exec .decompact s3 = .next s4 ∧
      s4.valid = true ∧ s4.xOut = feEncode s.curve x ∧ s4.yOut = feEncode s.curve y

/-- R134 (c): what a successful decode command returned, given back as operands, is accepted by the encode command of
the same format and yields the x-coordinate again, and for `COMPRESS` the parity of the returned y, which is the sign
asked for unless the right-hand side is 0. -/
def Obligations.EncodeAcceptsEveryDecodedPoint : Prop :=
  (∀ (c : Curve) (xb : FieldBytes) (root : Nat → Bool) (fail : Nat → Nat) (b : Bool), c.WellFormed →
    xb.length = c.len → (decompressResult c root fail xb b).valid = true →
    let r := decompressResult c root fail xb b
    compressResult c r.xo r.yo = { valid := true, xo := xb, yo := zeros c, sign := parity (int r.yo) } ∧
    (rhs c (int xb) ≠ 0 → parity (int r.yo) = b)) ∧
  (∀ (c : Curve) (xb : FieldBytes) (root : Nat → Bool) (fail : Nat → Nat), c.WellFormed →
    xb.length = c.len → (decompactResult c root fail xb).valid = true →
    let r := decompactResult c root fail xb
    compactResult c r.xo r.yo = { valid := true, xo := xb, yo := zeros c, sign := false })

/-! ### The field contract -/

/-- R92: `fe_encode` is the unique `L`-byte string of its value, and the two laws between it and `fe_decode`. -/
def Obligations.CanonicalEncodingIsUnique : Prop :=
  ∀ (c : Curve) (v : Nat), c.WellFormed → v < c.p →
    (feEncode c v).length = c.len ∧ int (feEncode c v) = v ∧
    (∀ B : FieldBytes, B.length = c.len → int B = v → B = feEncode c v) ∧
    feDecode c (feEncode c v) = (v, true) ∧
    (∀ B : FieldBytes, B.length = c.len → feDecode c B = (v, true) → feEncode c v = B)

/-- R91 and its corner in the table of `40_field_contract.md` section 6: decoding accepts exactly the values below
`p`, so it rejects `p` itself and, on every legal instance, the string of `0xFF` bytes. -/
def Obligations.DecodeRejectsNonCanonicalBytes : Prop :=
  ∀ c : Curve, c.WellFormed →
    (∀ B : FieldBytes, ((feDecode c B).2 = true ↔ int B < c.p) ∧ (int B < c.p → (feDecode c B).1 = int B)) ∧
    (feDecode c (feEncode c c.p)).2 = false ∧
    (feDecode c (List.replicate c.len 0xFF)).2 = false

/-- R96: the contract of `sqrt`, for every choice the backend can make: the flag is exact, a root is a root, the value
is a field element, `sqrt(0) = (0, 1)`, and no root is shut out. -/
def Obligations.SqrtMeetsItsContract : Prop :=
  ∀ (c : Curve) (root : Nat → Bool) (fail : Nat → Nat) (v : Nat), c.WellFormed → v < c.p →
    ((sqrt c root fail v).2 = true ↔ ∃ t, t < c.p ∧ mul c t t = v) ∧
    ((sqrt c root fail v).2 = true → mul c (sqrt c root fail v).1 (sqrt c root fail v).1 = v) ∧
    (sqrt c root fail v).1 < c.p ∧
    sqrt c root fail 0 = (0, true) ∧
    (∀ t, t < c.p → mul c t t = v → ∃ root', sqrt c root' fail v = (t, true)) ∧
    (∀ t, t < c.p → (¬ ∃ u, u < c.p ∧ mul c u u = v) → ∃ fail', sqrt c root fail' v = (t, false))

/-- R102: the square roots of a field element, how many points of the curve have a given x-coordinate, and how the two
of them differ. -/
def Obligations.CurveHasAtMostTwoPointsPerX : Prop :=
  ∀ (c : Curve) (x : Nat), c.WellFormed → x < c.p →
    (∀ r t, r < c.p → t < c.p → (mul c t t = mul c r r ↔ t = r ∨ t = neg c r) ∧
      (neg c r = r ↔ r = 0) ∧ (r = 0 ↔ mul c r r = 0)) ∧
    (¬ Residue c (rhs c x) → ∀ y, ¬ OnCurve c x y) ∧
    (rhs c x = 0 → ∀ y, OnCurve c x y ↔ y = 0) ∧
    (Residue c (rhs c x) → rhs c x ≠ 0 →
      ∃ y, 0 < y ∧ y < c.p ∧ (∀ z, OnCurve c x z ↔ z = y ∨ z = c.p - y) ∧ y ≠ c.p - y ∧
        parity y ≠ parity (c.p - y) ∧ y ≤ (c.p - 1) / 2 ∧ ¬ c.p - y ≤ (c.p - 1) / 2)

/-- R101: for `1 <= v < p` the parities of `v` and `neg(v)` differ; for `v = 0` both are 0. -/
def Obligations.NegationFlipsParity : Prop :=
  ∀ c : Curve, c.WellFormed →
    (∀ v, 1 ≤ v → v < c.p → (parity (neg c v)).toNat = 1 - (parity v).toNat) ∧
    neg c 0 = 0 ∧ parity 0 = false ∧ parity (neg c 0) = false

/-- R95: the laws of negation, with the source's example. -/
def Obligations.NegationLaws : Prop :=
  (∀ c : Curve, c.WellFormed →
    neg c 0 = 0 ∧ (∀ v, 1 ≤ v → v < c.p → neg c v = c.p - v) ∧
    (∀ v, v < c.p → add c v (neg c v) = 0 ∧ neg c (neg c v) = v)) ∧
  neg Curve.t97 6 = 91
end

