-- ==== Sys2Proof/Laws/Field.lean ====
section
/-! SUPPORT. What the byte strings and the field contract satisfy: lengths, the two directions between bytes and
integers (R55, R92), the least root, the contract of `sqrt` (R96), and the two roots of a residue (R101, R102). -/

namespace Sys2Proof.Machine

/-! ### Byte strings and integers -/

@[simp] theorem zeros_length (c : Curve) : (zeros c).length = c.len := List.length_replicate

@[simp] theorem bytesOf_length (n v : Nat) : (bytesOf n v).length = n := by simp [bytesOf]

@[simp] theorem feEncode_length (c : Curve) (v : Nat) : (feEncode c v).length = c.len := bytesOf_length _ _

theorem foldl_int (B : FieldBytes) (acc : Nat) :
    B.foldl (fun v byte => v * 256 + byte.toNat) acc = acc * 256 ^ B.length + int B := by
  induction B generalizing acc with
  | nil => simp [int]
  | cons b B ih =>
    have h0 : int (b :: B) = (0 * 256 + b.toNat) * 256 ^ B.length + int B := by
      rw [← ih]; rfl
    rw [List.foldl_cons, ih, h0, List.length_cons, pow_succ]; ring

theorem int_cons (b : Byte) (B : FieldBytes) : int (b :: B) = b.toNat * 256 ^ B.length + int B := by
  simpa [int] using foldl_int B b.toNat

theorem int_lt (B : FieldBytes) : int B < 256 ^ B.length := by
  induction B with
  | nil => simp [int]
  | cons b B ih =>
    have hb : b.toNat < 256 := b.isLt
    rw [int_cons, List.length_cons, pow_succ]
    nlinarith [Nat.mul_le_mul_right (256 ^ B.length) (Nat.le_of_lt_succ hb)]

theorem bytesOf_succ (n v : Nat) : bytesOf (n + 1) v = BitVec.ofNat 8 (v / 256 ^ n) :: bytesOf n v := by
  simp only [bytesOf, List.range_succ_eq_map, List.map_cons, List.map_map]
  congr 1
  refine List.map_congr_left fun i _ => ?_
  simp only [Function.comp, Nat.add_sub_cancel, Nat.succ_eq_add_one]
  congr 3; omega

theorem int_bytesOf (n v : Nat) : int (bytesOf n v) = v % 256 ^ n := by
  induction n with
  | zero => simp [bytesOf, int, Nat.mod_one]
  | succ n ih =>
    rw [bytesOf_succ, int_cons, ih, bytesOf_length, BitVec.toNat_ofNat, Nat.pow_succ 256, Nat.mod_mul]
    rw [Nat.mul_comm, Nat.add_comm]

/-- "the unique `L`-byte string `B` with `int(B) = v`" (R92): the value of the encoding. -/
theorem int_feEncode {c : Curve} (h : c.WellFormed) {v : Nat} (hv : v < c.p) : int (feEncode c v) = v := by
  rw [feEncode, int_bytesOf, Nat.mod_eq_of_lt (hv.trans h.p_lt)]

theorem bytesOf_int (B : FieldBytes) (n k : Nat) (hB : B.length = n) : bytesOf n (k * 256 ^ n + int B) = B := by
  induction B generalizing n k with
  | nil => subst hB; rfl
  | cons b B ih =>
    subst hB
    have hlt := int_lt B
    have hpos : 0 < 256 ^ B.length := by positivity
    have hb : b.toNat < 256 := b.isLt
    rw [List.length_cons, bytesOf_succ, int_cons]
    have hsplit : k * 256 ^ (B.length + 1) + (b.toNat * 256 ^ B.length + int B)
        = (k * 256 + b.toNat) * 256 ^ B.length + int B := by rw [pow_succ]; ring
    rw [hsplit, ih _ _ rfl]
    congr 1
    rw [Nat.mul_comm, Nat.mul_add_div hpos, Nat.div_eq_of_lt hlt]
    apply BitVec.eq_of_toNat_eq
    rw [BitVec.toNat_ofNat]
    omega

/-- Encoding the value of an `L`-byte string gives the string back (R92). -/
theorem feEncode_int {c : Curve} {B : FieldBytes} (hB : B.length = c.len) : feEncode c (int B) = B := by
  simpa [feEncode] using bytesOf_int B c.len 0 hB

theorem int_zeros (c : Curve) : int (zeros c) = 0 := by
  unfold zeros
  induction c.len with
  | zero => rfl
  | succ n ih => rw [List.replicate_succ, int_cons, ih]; simp

theorem feEncode_zero (c : Curve) : feEncode c 0 = zeros c := by
  simpa [int_zeros] using feEncode_int (zeros_length c)

theorem feDecode_of_lt {c : Curve} {B : FieldBytes} (h : int B < c.p) : feDecode c B = (int B, true) := if_pos h

theorem feDecode_of_ge {c : Curve} {B : FieldBytes} (h : c.p ≤ int B) : feDecode c B = (0, false) :=
  if_neg (Nat.not_lt.2 h)

/-! ### Negation and parity -/

theorem neg_lt_p {c : Curve} (h : c.WellFormed) (v : Nat) : neg c v < c.p := Nat.mod_lt _ h.prime.pos

theorem neg_of_zero (c : Curve) : neg c 0 = 0 := by simp [neg]

theorem neg_of_ne_zero {c : Curve} {v : Nat} (h0 : v ≠ 0) (hv : v < c.p) : neg c v = c.p - v :=
  Nat.mod_eq_of_lt (by omega)

theorem neg_neg_of_lt {c : Curve} {v : Nat} (hv : v < c.p) : neg c (neg c v) = v := by
  by_cases h0 : v = 0
  · rw [h0, neg_of_zero, neg_of_zero]
  · rw [neg_of_ne_zero h0 hv, neg_of_ne_zero (by omega) (by omega)]; omega

theorem eq_zero_of_neg {c : Curve} {v : Nat} (hv : v < c.p) (h : neg c v = 0) : v = 0 := by
  rw [← neg_neg_of_lt hv, h, neg_of_zero]

/-- The two roots of a non-zero residue differ in parity (R101). -/
theorem parity_neg {c : Curve} (h : c.WellFormed) {v : Nat} (h0 : v ≠ 0) (hv : v < c.p) :
    parity (neg c v) = !parity v := by
  have := h.odd
  rw [neg_of_ne_zero h0 hv, parity, parity]
  rcases Nat.mod_two_eq_zero_or_one v with e | e
  · have : (c.p - v) % 2 = 1 := by omega
    simp [e, this]
  · have : (c.p - v) % 2 = 0 := by omega
    simp [e, this]

/-- The smaller of a field element and its negative is the one in the lower half (R121, R132). -/
theorem le_neg_iff {c : Curve} (h : c.WellFormed) {v : Nat} (hv : v < c.p) :
    v ≤ neg c v ↔ v ≤ (c.p - 1) / 2 := by
  have := h.odd
  by_cases h0 : v = 0
  · simp [h0]
  · rw [neg_of_ne_zero h0 hv]; omega

theorem mul_neg_neg {c : Curve} {v : Nat} (hv : v < c.p) : mul c (neg c v) (neg c v) = mul c v v := by
  by_cases h0 : v = 0
  · rw [h0, neg_of_zero]
  · rw [neg_of_ne_zero h0 hv, mul, mul]
    apply Nat.ModEq.symm
    rw [Nat.modEq_iff_dvd]
    refine ⟨(c.p : Int) - 2 * v, ?_⟩
    push_cast [Nat.cast_sub hv.le]
    ring

/-- "`t^2 = v` has at most two solutions in the field; if `r` is one, `neg(r)` is the other" (R102). -/
theorem root_eq_or_neg {c : Curve} (h : c.WellFormed) {t u : Nat} (ht : t < c.p) (hu : u < c.p)
    (he : mul c t t = mul c u u) : t = u ∨ t = neg c u := by
  have hd : (c.p : Int) ∣ (u - t) * (u + t) := by
    have := (Nat.modEq_iff_dvd (n := c.p) (a := t * t) (b := u * u)).1 he
    push_cast at this
    convert this using 1; ring
  have hp : Prime (c.p : Int) := Nat.prime_iff_prime_int.1 h.prime
  rcases hp.dvd_or_dvd hd with hd | hd
  · left
    have h1 : (t : Int) ≡ u [ZMOD c.p] := Int.modEq_iff_dvd.2 hd
    have := Int.natCast_modEq_iff.1 h1
    unfold Nat.ModEq at this
    rwa [Nat.mod_eq_of_lt ht, Nat.mod_eq_of_lt hu] at this
  · have hd' : c.p ∣ u + t := by exact_mod_cast hd
    by_cases h0 : u = 0
    · subst h0
      left
      exact Nat.eq_zero_of_dvd_of_lt (by simpa using hd') ht
    · right
      obtain ⟨k, hk⟩ := hd'
      have hk1 : k = 1 := by
        have h2 : c.p * k < c.p * 2 := by omega
        have h3 : k < 2 := Nat.lt_of_mul_lt_mul_left h2
        have h4 : k ≠ 0 := by rintro rfl; omega
        omega
      subst hk1
      rw [neg_of_ne_zero h0 hu]; omega

/-! ### The square root -/

theorem leastRoot_some {c : Curve} {v t : Nat} (h : leastRoot c v = some t) : t < c.p ∧ mul c t t = v := by
  have h1 := List.find?_some h
  have h2 := List.mem_of_find?_eq_some h
  exact ⟨by simpa using h2, by simpa using h1⟩

theorem leastRoot_none {c : Curve} {v : Nat} (h : leastRoot c v = none) : ¬ Residue c v := by
  rintro ⟨t, ht, he⟩
  have := (List.find?_eq_none.1 h) t (by simpa using ht)
  simp [he] at this

/-- All that `sqrt` can answer (R96): a root and `ok = 1` for a residue, some field element and `ok = 0` for a
non-residue. -/
theorem sqrt_cases {c : Curve} (h : c.WellFormed) (root : Nat → Bool) (fail : Nat → Nat) (v : Nat) :
    (∃ r, sqrt c root fail v = (r, true) ∧ r < c.p ∧ mul c r r = v) ∨
    (∃ r, sqrt c root fail v = (r, false) ∧ r < c.p ∧ ¬ Residue c v) := by
  cases hl : leastRoot c v with
  | none =>
    refine Or.inr ⟨fail v % c.p, ?_, Nat.mod_lt _ h.prime.pos, leastRoot_none hl⟩
    simp [sqrt, hl]
  | some t =>
    obtain ⟨ht, he⟩ := leastRoot_some hl
    refine Or.inl ⟨if root v then neg c t else t, by simp [sqrt, hl], ?_, ?_⟩
    · split
      · exact neg_lt_p h t
      · exact ht
    · split
      · rw [mul_neg_neg ht, he]
      · exact he

/-- For a residue with root `t`, `sqrt` answers `t` or its negative. -/
theorem sqrt_of_root {c : Curve} (h : c.WellFormed) (root : Nat → Bool) (fail : Nat → Nat) {t : Nat} (ht : t < c.p) :
    ∃ r, sqrt c root fail (mul c t t) = (r, true) ∧ (r = t ∨ r = neg c t) := by
  rcases sqrt_cases h root fail (mul c t t) with ⟨r, hr, hlt, he⟩ | ⟨r, _, _, hn⟩
  · exact ⟨r, hr, root_eq_or_neg h hlt ht he⟩
  · exact absurd ⟨t, ht, rfl⟩ hn

/-- For a non-residue, `sqrt` answers `ok = 0`. -/
theorem sqrt_of_not_residue {c : Curve} (h : c.WellFormed) (root : Nat → Bool) (fail : Nat → Nat) {v : Nat}
    (hv : ¬ Residue c v) : (sqrt c root fail v).2 = false := by
  rcases sqrt_cases h root fail v with ⟨r, _, hlt, he⟩ | ⟨r, hr, _, _⟩
  · exact absurd ⟨r, hlt, he⟩ hv
  · rw [hr]

end Sys2Proof.Machine
end

