-- ==== Sys2Proof/Laws/Commands.lean ====
section
/-! SUPPORT. One law for each command's `Exec` function: what it returns on operands that have an answer, and that it
fails on all others (R110, R120, R130 to R132), whatever root the backend returns. -/

namespace Sys2Proof.Machine

variable {c : Curve}

/-- `DECOMPRESS` on an x-coordinate of the curve returns the root of the parity asked for, and 0 when the roots are
0 (R111, R112). -/
theorem decompressResult_of_point (h : c.WellFormed) (root : Nat → Bool) (fail : Nat → Nat) {xb : FieldBytes}
    (hlen : xb.length = c.len) {y : Nat} (hy : OnCurve c (int xb) y) {s : Bool} (hs : parity y = s ∨ y = 0) :
    decompressResult c root fail xb s = { valid := true, xo := xb, yo := feEncode c y, sign := false } := by
  obtain ⟨hx, hyp, he⟩ := hy
  obtain ⟨r, hr, hor⟩ := sqrt_of_root h root fail hyp
  have hsel : select r (neg c r) (parity r == s) = y := by
    rcases hor with rfl | rfl
    · rcases hs with rfl | h0
      · simp [select]
      · simp [h0, neg_of_zero, select]
    · rw [neg_neg_of_lt hyp]
      by_cases h0 : y = 0
      · simp [h0, neg_of_zero, select]
      · rcases hs with rfl | h0'
        · simp [select, parity_neg h h0 hyp]
        · exact absurd h0' h0
  simp only [decompressResult, feDecode_of_lt hx, ← he, hr, hsel, feEncode_int hlen, Bool.and_true, if_pos]

/-- `DECOMPRESS` fails on a non-canonical encoding and on an x-coordinate without a point (R110). -/
theorem decompressResult_fail (h : c.WellFormed) (root : Nat → Bool) (fail : Nat → Nat) {xb : FieldBytes} {s : Bool}
    (hx : c.p ≤ int xb ∨ ¬ Residue c (rhs c (int xb))) : decompressResult c root fail xb s = failResult c := by
  by_cases hlt : int xb < c.p
  · have hf := sqrt_of_not_residue h root fail (hx.resolve_left (Nat.not_le.2 hlt))
    simp only [decompressResult, feDecode_of_lt hlt, hf, Bool.and_false, Bool.false_eq_true, if_false]
  · simp only [decompressResult, feDecode_of_ge (Nat.not_lt.1 hlt), Bool.false_and, Bool.false_eq_true, if_false]

/-- `DECOMPACT` on an x-coordinate of the curve returns the root in the lower half (R121, R122). -/
theorem decompactResult_of_point (h : c.WellFormed) (root : Nat → Bool) (fail : Nat → Nat) {xb : FieldBytes}
    (hlen : xb.length = c.len) {y : Nat} (hy : OnCurve c (int xb) y) (hlow : y ≤ (c.p - 1) / 2) :
    decompactResult c root fail xb = { valid := true, xo := xb, yo := feEncode c y, sign := false } := by
  obtain ⟨hx, hyp, he⟩ := hy
  obtain ⟨r, hr, hor⟩ := sqrt_of_root h root fail hyp
  have hle : y ≤ neg c y := (le_neg_iff h hyp).2 hlow
  have hsel : select r (neg c r) (le r (neg c r)) = y := by
    rcases hor with rfl | rfl
    · simp [select, le, hle]
    · rw [neg_neg_of_lt hyp]
      by_cases hge : neg c y ≤ y
      · simp [select, le, le_antisymm hge hle]
      · simp [select, le, hge]
  simp only [decompactResult, feDecode_of_lt hx, ← he, hr, hsel, feEncode_int hlen, Bool.and_true, if_pos]

/-- `DECOMPACT` fails on exactly the same two grounds as `DECOMPRESS` (R120). -/
theorem decompactResult_fail (h : c.WellFormed) (root : Nat → Bool) (fail : Nat → Nat) {xb : FieldBytes}
    (hx : c.p ≤ int xb ∨ ¬ Residue c (rhs c (int xb))) : decompactResult c root fail xb = failResult c := by
  by_cases hlt : int xb < c.p
  · have hf := sqrt_of_not_residue h root fail (hx.resolve_left (Nat.not_le.2 hlt))
    simp only [decompactResult, feDecode_of_lt hlt, hf, Bool.and_false, Bool.false_eq_true, if_false]
  · simp only [decompactResult, feDecode_of_ge (Nat.not_lt.1 hlt), Bool.false_and, Bool.false_eq_true, if_false]

/-- The point check accepts exactly the canonical encodings of a point of the curve (R130). -/
theorem pointCheck_iff (h : c.WellFormed) (xb yb : FieldBytes) :
    (pointCheck c xb yb).1 = true ↔ OnCurve c (int xb) (int yb) := by
  have hp := h.prime.pos
  unfold pointCheck OnCurve
  by_cases hx : int xb < c.p <;> by_cases hy : int yb < c.p
  · simp [feDecode_of_lt hx, feDecode_of_lt hy, hx, hy, eq]
  · simp [feDecode_of_ge (Nat.not_lt.1 hy), hy]
  · simp [feDecode_of_ge (Nat.not_lt.1 hx), hx]
  · simp [feDecode_of_ge (Nat.not_lt.1 hx), hx]

theorem pointCheck_of_point {xb yb : FieldBytes} (hp : OnCurve c (int xb) (int yb)) :
    pointCheck c xb yb = (true, int xb, int yb) := by
  simp [pointCheck, feDecode_of_lt hp.1, feDecode_of_lt hp.2.1, eq, hp.2.2]

theorem compressResult_of_point {xb yb : FieldBytes} (hlen : xb.length = c.len) (hp : OnCurve c (int xb) (int yb)) :
    compressResult c xb yb = { valid := true, xo := xb, yo := zeros c, sign := parity (int yb) } := by
  simp [compressResult, pointCheck_of_point hp, feEncode_int hlen]

theorem compressResult_fail (h : c.WellFormed) {xb yb : FieldBytes} (hp : ¬ OnCurve c (int xb) (int yb)) :
    compressResult c xb yb = failResult c := by
  simp [compressResult, mt (pointCheck_iff h xb yb).1 hp]

theorem compactResult_of_point (h : c.WellFormed) {xb yb : FieldBytes} (hlen : xb.length = c.len)
    (hp : OnCurve c (int xb) (int yb)) (hlow : int yb ≤ (c.p - 1) / 2) :
    compactResult c xb yb = { valid := true, xo := xb, yo := zeros c, sign := false } := by
  simp [compactResult, pointCheck_of_point hp, feEncode_int hlen, le, (le_neg_iff h hp.2.1).2 hlow]

theorem compactResult_fail (h : c.WellFormed) {xb yb : FieldBytes}
    (hp : ¬ OnCurve c (int xb) (int yb) ∨ (c.p - 1) / 2 < int yb) : compactResult c xb yb = failResult c := by
  by_cases ho : OnCurve c (int xb) (int yb)
  · have hge := mt (le_neg_iff h ho.2.1).1 (Nat.not_le.2 (hp.resolve_left (not_not.2 ho)))
    simp [compactResult, pointCheck_of_point ho, le, hge]
  · simp [compactResult, mt (pointCheck_iff h xb yb).1 ho]

/-- An x-coordinate with a residue has a point of either parity, or the point with `y = 0` (R102). -/
theorem exists_point_of_parity (h : c.WellFormed) {x : Nat} (hx : x < c.p) (hr : Residue c (rhs c x)) (s : Bool) :
    ∃ y, OnCurve c x y ∧ (parity y = s ∨ y = 0) := by
  obtain ⟨t, ht, he⟩ := hr
  by_cases h0 : t = 0
  · exact ⟨t, ⟨hx, ht, he⟩, .inr h0⟩
  by_cases hs : parity t = s
  · exact ⟨t, ⟨hx, ht, he⟩, .inl hs⟩
  · refine ⟨neg c t, ⟨hx, neg_lt_p h t, by rw [mul_neg_neg ht, he]⟩, .inl ?_⟩
    rw [parity_neg h h0 ht]
    cases s <;> simp_all

/-- An x-coordinate with a residue has a point in the lower half (R102). -/
theorem exists_point_low (h : c.WellFormed) {x : Nat} (hx : x < c.p) (hr : Residue c (rhs c x)) :
    ∃ y, OnCurve c x y ∧ y ≤ (c.p - 1) / 2 := by
  obtain ⟨t, ht, he⟩ := hr
  by_cases hlow : t ≤ (c.p - 1) / 2
  · exact ⟨t, ⟨hx, ht, he⟩, hlow⟩
  · refine ⟨neg c t, ⟨hx, neg_lt_p h t, by rw [mul_neg_neg ht, he]⟩, ?_⟩
    have := h.odd
    rw [neg_of_ne_zero (by omega) ht]
    omega

theorem OnCurve.decodable {x y : Nat} (h : OnCurve c x y) : x < c.p ∧ Residue c (rhs c x) := ⟨h.1, y, h.2.1, h.2.2⟩

/-- Everything `DECOMPRESS` can return (R111). -/
theorem decompressResult_cases (h : c.WellFormed) (root : Nat → Bool) (fail : Nat → Nat) {xb : FieldBytes}
    (hlen : xb.length = c.len) (s : Bool) :
    (¬ (int xb < c.p ∧ Residue c (rhs c (int xb))) ∧ decompressResult c root fail xb s = failResult c) ∨
    (∃ y, OnCurve c (int xb) y ∧ (parity y = s ∨ y = 0) ∧
      decompressResult c root fail xb s = { valid := true, xo := xb, yo := feEncode c y, sign := false }) := by
  by_cases hd : int xb < c.p ∧ Residue c (rhs c (int xb))
  · obtain ⟨y, hy, hs⟩ := exists_point_of_parity h hd.1 hd.2 s
    exact .inr ⟨y, hy, hs, decompressResult_of_point h root fail hlen hy hs⟩
  · exact .inl ⟨hd, decompressResult_fail h root fail (by
      rw [← Nat.not_lt, ← not_and_or]; exact hd)⟩

/-- Everything `DECOMPACT` can return (R122). -/
theorem decompactResult_cases (h : c.WellFormed) (root : Nat → Bool) (fail : Nat → Nat) {xb : FieldBytes}
    (hlen : xb.length = c.len) :
    (¬ (int xb < c.p ∧ Residue c (rhs c (int xb))) ∧ decompactResult c root fail xb = failResult c) ∨
    (∃ y, OnCurve c (int xb) y ∧ y ≤ (c.p - 1) / 2 ∧
      decompactResult c root fail xb = { valid := true, xo := xb, yo := feEncode c y, sign := false }) := by
  by_cases hd : int xb < c.p ∧ Residue c (rhs c (int xb))
  · obtain ⟨y, hy, hlow⟩ := exists_point_low h hd.1 hd.2
    exact .inr ⟨y, hy, hlow, decompactResult_of_point h root fail hlen hy hlow⟩
  · exact .inl ⟨hd, decompactResult_fail h root fail (by
      rw [← Nat.not_lt, ← not_and_or]; exact hd)⟩

/-! ### The shape of every result -/

/-- What every `Exec` result satisfies (R42, R151): registers of `L` bytes, all zero when it is not valid; a sign bit
only with a valid result without a `y`. -/
structure Result.Shape (c : Curve) (r : Result) : Prop where
  xo_len : r.xo.length = c.len
  yo_len : r.yo.length = c.len
  invalid_empty : r.valid = false → r.xo = zeros c ∧ r.yo = zeros c ∧ r.sign = false
  sign_valid : r.sign = true → r.valid = true ∧ r.yo = zeros c

theorem failResult_shape (c : Curve) : (failResult c).Shape c :=
  ⟨zeros_length c, zeros_length c, fun _ => ⟨rfl, rfl, rfl⟩, fun h => nomatch h⟩

theorem decompressResult_shape (root : Nat → Bool) (fail : Nat → Nat) (xb : FieldBytes) (s : Bool) :
    (decompressResult c root fail xb s).Shape c := by
  simp only [decompressResult]
  split
  · exact ⟨feEncode_length c _, feEncode_length c _, fun h => (nomatch h), fun h => (nomatch h)⟩
  · exact failResult_shape c

theorem decompactResult_shape (root : Nat → Bool) (fail : Nat → Nat) (xb : FieldBytes) :
    (decompactResult c root fail xb).Shape c := by
  simp only [decompactResult]
  split
  · exact ⟨feEncode_length c _, feEncode_length c _, fun h => (nomatch h), fun h => (nomatch h)⟩
  · exact failResult_shape c

theorem compressResult_shape (xb yb : FieldBytes) : (compressResult c xb yb).Shape c := by
  simp only [compressResult]
  split
  · exact ⟨feEncode_length c _, zeros_length c, fun h => (nomatch h), fun _ => ⟨rfl, rfl⟩⟩
  · exact failResult_shape c

theorem compactResult_shape (xb yb : FieldBytes) : (compactResult c xb yb).Shape c := by
  simp only [compactResult]
  split
  · exact ⟨feEncode_length c _, zeros_length c, fun h => (nomatch h), fun h => (nomatch h)⟩
  · exact failResult_shape c

end Sys2Proof.Machine
end

