-- ==== Sys2Proof/Laws/Decode.lean ====
section
/-! SUPPORT. The fields of a command word as arithmetic on its value, and the decoder as arithmetic (R70, R75). -/

namespace Sys2Proof

theorem fieldRsv1_eq_zero (w : Word) : fieldRsv1 w = 0 ↔ w.toNat / 512 = 0 := by
  have := w.isLt
  rw [← BitVec.toNat_inj]
  simp [fieldRsv1, BitVec.extractLsb'_toNat, Nat.shiftRight_eq_div_pow]
  omega

theorem fieldRsv0_eq_zero (w : Word) : fieldRsv0 w = 0 ↔ w.toNat / 16 % 16 = 0 := by
  rw [← BitVec.toNat_inj]
  simp [fieldRsv0, BitVec.extractLsb'_toNat, Nat.shiftRight_eq_div_pow]

theorem fieldOp_eq_iff (w : Word) (n : Nat) (hn : n < 16) : fieldOp w = BitVec.ofNat 4 n ↔ w.toNat % 16 = n := by
  rw [← BitVec.toNat_inj]
  simp [fieldOp, BitVec.extractLsb'_toNat]
  omega

theorem fieldS_eq (w : Word) : fieldS w = decide (w.toNat / 256 % 2 = 1) := by
  rw [Bool.eq_iff_iff]
  simp [fieldS, BitVec.getLsbD, Nat.testBit, Nat.shiftRight_eq_div_pow]

/-- `Decode(w)` of R75 with the fields written as quotients and remainders of the word's value. -/
theorem decode_eq (w : Word) : decode w =
    if w.toNat / 512 ≠ 0 ∨ w.toNat / 16 % 16 ≠ 0 then .error .reservedBits
    else if w.toNat % 16 = 1 then .ok (.decompress (decide (w.toNat / 256 % 2 = 1)))
    else if w.toNat / 256 % 2 = 1 then .error .signNotTaken
    else if w.toNat % 16 = 2 then .ok .decompact
    else if w.toNat % 16 = 3 then .ok .compress
    else if w.toNat % 16 = 4 then .ok .compact
    else .error .reservedOp := by
  have e1 : fieldOp w = 0x1 ↔ _ := fieldOp_eq_iff w 1 (by decide)
  have e2 : fieldOp w = 0x2 ↔ _ := fieldOp_eq_iff w 2 (by decide)
  have e3 : fieldOp w = 0x3 ↔ _ := fieldOp_eq_iff w 3 (by decide)
  have e4 : fieldOp w = 0x4 ↔ _ := fieldOp_eq_iff w 4 (by decide)
  simp only [decode, ne_eq, fieldRsv1_eq_zero, fieldRsv0_eq_zero, fieldS_eq, decide_eq_true_eq, e1, e2, e3, e4]

end Sys2Proof
end

