-- ==== Sys2Proof/Laws/State.lean ====
section
/-! SUPPORT. One lemma for each field under each update of the state, true by `rfl`, so that no later proof unfolds a
record update. -/

namespace Sys2Proof.Machine

variable (s : State)


@[simp] theorem State.latch_xIn (i : Instr) : (s.latch i).xIn = s.xIn := rfl
@[simp] theorem State.latch_yIn (i : Instr) : (s.latch i).yIn = s.yIn := rfl
@[simp] theorem State.latch_xOut (i : Instr) : (s.latch i).xOut = s.xOut := rfl
@[simp] theorem State.latch_yOut (i : Instr) : (s.latch i).yOut = s.yOut := rfl
@[simp] theorem State.latch_busy (i : Instr) : (s.latch i).busy = s.busy := rfl
@[simp] theorem State.latch_done (i : Instr) : (s.latch i).done = s.done := rfl
@[simp] theorem State.latch_valid (i : Instr) : (s.latch i).valid = s.valid := rfl
@[simp] theorem State.latch_sign (i : Instr) : (s.latch i).sign = s.sign := rfl
@[simp] theorem State.latch_ill (i : Instr) : (s.latch i).ill = s.ill := rfl
@[simp] theorem State.latch_latOp (i : Instr) : (s.latch i).latOp = opOf i := rfl
@[simp] theorem State.latch_latS (i : Instr) : (s.latch i).latS = i.sign := rfl
@[simp] theorem State.latch_latX (i : Instr) : (s.latch i).latX = s.xIn := rfl
@[simp] theorem State.latch_latY (i : Instr) : (s.latch i).latY = s.yIn := rfl
@[simp] theorem State.latch_curve (i : Instr) : (s.latch i).curve = s.curve := rfl
@[simp] theorem State.latch_inputs (i : Instr) : (s.latch i).inputs = s.inputs := rfl
@[simp] theorem State.latch_reads (i : Instr) : (s.latch i).reads = s.reads := rfl

@[simp] theorem State.flagsIssued_xIn : (s.flagsIssued).xIn = s.xIn := rfl
@[simp] theorem State.flagsIssued_yIn : (s.flagsIssued).yIn = s.yIn := rfl
@[simp] theorem State.flagsIssued_xOut : (s.flagsIssued).xOut = s.xOut := rfl
@[simp] theorem State.flagsIssued_yOut : (s.flagsIssued).yOut = s.yOut := rfl
@[simp] theorem State.flagsIssued_busy : (s.flagsIssued).busy = true := rfl
@[simp] theorem State.flagsIssued_done : (s.flagsIssued).done = false := rfl
@[simp] theorem State.flagsIssued_valid : (s.flagsIssued).valid = false := rfl
@[simp] theorem State.flagsIssued_sign : (s.flagsIssued).sign = false := rfl
@[simp] theorem State.flagsIssued_ill : (s.flagsIssued).ill = false := rfl
@[simp] theorem State.flagsIssued_latOp : (s.flagsIssued).latOp = s.latOp := rfl
@[simp] theorem State.flagsIssued_latS : (s.flagsIssued).latS = s.latS := rfl
@[simp] theorem State.flagsIssued_latX : (s.flagsIssued).latX = s.latX := rfl
@[simp] theorem State.flagsIssued_latY : (s.flagsIssued).latY = s.latY := rfl
@[simp] theorem State.flagsIssued_curve : (s.flagsIssued).curve = s.curve := rfl
@[simp] theorem State.flagsIssued_inputs : (s.flagsIssued).inputs = s.inputs := rfl
@[simp] theorem State.flagsIssued_reads : (s.flagsIssued).reads = s.reads := rfl

@[simp] theorem State.flagsIllegal_xIn : (s.flagsIllegal).xIn = s.xIn := rfl
@[simp] theorem State.flagsIllegal_yIn : (s.flagsIllegal).yIn = s.yIn := rfl
@[simp] theorem State.flagsIllegal_xOut : (s.flagsIllegal).xOut = s.xOut := rfl
@[simp] theorem State.flagsIllegal_yOut : (s.flagsIllegal).yOut = s.yOut := rfl
@[simp] theorem State.flagsIllegal_busy : (s.flagsIllegal).busy = false := rfl
@[simp] theorem State.flagsIllegal_done : (s.flagsIllegal).done = true := rfl
@[simp] theorem State.flagsIllegal_valid : (s.flagsIllegal).valid = false := rfl
@[simp] theorem State.flagsIllegal_sign : (s.flagsIllegal).sign = false := rfl
@[simp] theorem State.flagsIllegal_ill : (s.flagsIllegal).ill = true := rfl
@[simp] theorem State.flagsIllegal_latOp : (s.flagsIllegal).latOp = s.latOp := rfl
@[simp] theorem State.flagsIllegal_latS : (s.flagsIllegal).latS = s.latS := rfl
@[simp] theorem State.flagsIllegal_latX : (s.flagsIllegal).latX = s.latX := rfl
@[simp] theorem State.flagsIllegal_latY : (s.flagsIllegal).latY = s.latY := rfl
@[simp] theorem State.flagsIllegal_curve : (s.flagsIllegal).curve = s.curve := rfl
@[simp] theorem State.flagsIllegal_inputs : (s.flagsIllegal).inputs = s.inputs := rfl
@[simp] theorem State.flagsIllegal_reads : (s.flagsIllegal).reads = s.reads := rfl

@[simp] theorem State.flagsCompleted_xIn (v g : Bool) : (s.flagsCompleted v g).xIn = s.xIn := rfl
@[simp] theorem State.flagsCompleted_yIn (v g : Bool) : (s.flagsCompleted v g).yIn = s.yIn := rfl
@[simp] theorem State.flagsCompleted_xOut (v g : Bool) : (s.flagsCompleted v g).xOut = s.xOut := rfl
@[simp] theorem State.flagsCompleted_yOut (v g : Bool) : (s.flagsCompleted v g).yOut = s.yOut := rfl
@[simp] theorem State.flagsCompleted_busy (v g : Bool) : (s.flagsCompleted v g).busy = false := rfl
@[simp] theorem State.flagsCompleted_done (v g : Bool) : (s.flagsCompleted v g).done = true := rfl
@[simp] theorem State.flagsCompleted_valid (v g : Bool) : (s.flagsCompleted v g).valid = v := rfl
@[simp] theorem State.flagsCompleted_sign (v g : Bool) : (s.flagsCompleted v g).sign = g := rfl
@[simp] theorem State.flagsCompleted_ill (v g : Bool) : (s.flagsCompleted v g).ill = s.ill := rfl
@[simp] theorem State.flagsCompleted_latOp (v g : Bool) : (s.flagsCompleted v g).latOp = s.latOp := rfl
@[simp] theorem State.flagsCompleted_latS (v g : Bool) : (s.flagsCompleted v g).latS = s.latS := rfl
@[simp] theorem State.flagsCompleted_latX (v g : Bool) : (s.flagsCompleted v g).latX = s.latX := rfl
@[simp] theorem State.flagsCompleted_latY (v g : Bool) : (s.flagsCompleted v g).latY = s.latY := rfl
@[simp] theorem State.flagsCompleted_curve (v g : Bool) : (s.flagsCompleted v g).curve = s.curve := rfl
@[simp] theorem State.flagsCompleted_inputs (v g : Bool) : (s.flagsCompleted v g).inputs = s.inputs := rfl
@[simp] theorem State.flagsCompleted_reads (v g : Bool) : (s.flagsCompleted v g).reads = s.reads := rfl

@[simp] theorem State.clearResults_xIn : (s.clearResults).xIn = s.xIn := rfl
@[simp] theorem State.clearResults_yIn : (s.clearResults).yIn = s.yIn := rfl
@[simp] theorem State.clearResults_xOut : (s.clearResults).xOut = zeros s.curve := rfl
@[simp] theorem State.clearResults_yOut : (s.clearResults).yOut = zeros s.curve := rfl
@[simp] theorem State.clearResults_busy : (s.clearResults).busy = s.busy := rfl
@[simp] theorem State.clearResults_done : (s.clearResults).done = s.done := rfl
@[simp] theorem State.clearResults_valid : (s.clearResults).valid = s.valid := rfl
@[simp] theorem State.clearResults_sign : (s.clearResults).sign = s.sign := rfl
@[simp] theorem State.clearResults_ill : (s.clearResults).ill = s.ill := rfl
@[simp] theorem State.clearResults_latOp : (s.clearResults).latOp = s.latOp := rfl
@[simp] theorem State.clearResults_latS : (s.clearResults).latS = s.latS := rfl
@[simp] theorem State.clearResults_latX : (s.clearResults).latX = s.latX := rfl
@[simp] theorem State.clearResults_latY : (s.clearResults).latY = s.latY := rfl
@[simp] theorem State.clearResults_curve : (s.clearResults).curve = s.curve := rfl
@[simp] theorem State.clearResults_inputs : (s.clearResults).inputs = s.inputs := rfl
@[simp] theorem State.clearResults_reads : (s.clearResults).reads = s.reads := rfl

@[simp] theorem State.issue_xIn (i : Instr) : (s.issue i).xIn = s.xIn := rfl
@[simp] theorem State.issue_yIn (i : Instr) : (s.issue i).yIn = s.yIn := rfl
@[simp] theorem State.issue_xOut (i : Instr) : (s.issue i).xOut = zeros s.curve := rfl
@[simp] theorem State.issue_yOut (i : Instr) : (s.issue i).yOut = zeros s.curve := rfl
@[simp] theorem State.issue_busy (i : Instr) : (s.issue i).busy = true := rfl
@[simp] theorem State.issue_done (i : Instr) : (s.issue i).done = false := rfl
@[simp] theorem State.issue_valid (i : Instr) : (s.issue i).valid = false := rfl
@[simp] theorem State.issue_sign (i : Instr) : (s.issue i).sign = false := rfl
@[simp] theorem State.issue_ill (i : Instr) : (s.issue i).ill = false := rfl
@[simp] theorem State.issue_latOp (i : Instr) : (s.issue i).latOp = opOf i := rfl
@[simp] theorem State.issue_latS (i : Instr) : (s.issue i).latS = i.sign := rfl
@[simp] theorem State.issue_latX (i : Instr) : (s.issue i).latX = s.xIn := rfl
@[simp] theorem State.issue_latY (i : Instr) : (s.issue i).latY = s.yIn := rfl
@[simp] theorem State.issue_curve (i : Instr) : (s.issue i).curve = s.curve := rfl
@[simp] theorem State.issue_inputs (i : Instr) : (s.issue i).inputs = s.inputs := rfl
@[simp] theorem State.issue_reads (i : Instr) : (s.issue i).reads = s.reads := rfl

@[simp] theorem State.illegal_xIn : (s.illegal).xIn = s.xIn := rfl
@[simp] theorem State.illegal_yIn : (s.illegal).yIn = s.yIn := rfl
@[simp] theorem State.illegal_xOut : (s.illegal).xOut = zeros s.curve := rfl
@[simp] theorem State.illegal_yOut : (s.illegal).yOut = zeros s.curve := rfl
@[simp] theorem State.illegal_busy : (s.illegal).busy = false := rfl
@[simp] theorem State.illegal_done : (s.illegal).done = true := rfl
@[simp] theorem State.illegal_valid : (s.illegal).valid = false := rfl
@[simp] theorem State.illegal_sign : (s.illegal).sign = false := rfl
@[simp] theorem State.illegal_ill : (s.illegal).ill = true := rfl
@[simp] theorem State.illegal_latOp : (s.illegal).latOp = s.latOp := rfl
@[simp] theorem State.illegal_latS : (s.illegal).latS = s.latS := rfl
@[simp] theorem State.illegal_latX : (s.illegal).latX = s.latX := rfl
@[simp] theorem State.illegal_latY : (s.illegal).latY = s.latY := rfl
@[simp] theorem State.illegal_curve : (s.illegal).curve = s.curve := rfl
@[simp] theorem State.illegal_inputs : (s.illegal).inputs = s.inputs := rfl
@[simp] theorem State.illegal_reads : (s.illegal).reads = s.reads := rfl

@[simp] theorem State.complete_xIn (r : Result) : (s.complete r).xIn = s.xIn := rfl
@[simp] theorem State.complete_yIn (r : Result) : (s.complete r).yIn = s.yIn := rfl
@[simp] theorem State.complete_xOut (r : Result) : (s.complete r).xOut = r.xo := rfl
@[simp] theorem State.complete_yOut (r : Result) : (s.complete r).yOut = r.yo := rfl
@[simp] theorem State.complete_busy (r : Result) : (s.complete r).busy = false := rfl
@[simp] theorem State.complete_done (r : Result) : (s.complete r).done = true := rfl
@[simp] theorem State.complete_valid (r : Result) : (s.complete r).valid = r.valid := rfl
@[simp] theorem State.complete_sign (r : Result) : (s.complete r).sign = r.sign := rfl
@[simp] theorem State.complete_ill (r : Result) : (s.complete r).ill = s.ill := rfl
@[simp] theorem State.complete_latOp (r : Result) : (s.complete r).latOp = s.latOp := rfl
@[simp] theorem State.complete_latS (r : Result) : (s.complete r).latS = s.latS := rfl
@[simp] theorem State.complete_latX (r : Result) : (s.complete r).latX = s.latX := rfl
@[simp] theorem State.complete_latY (r : Result) : (s.complete r).latY = s.latY := rfl
@[simp] theorem State.complete_curve (r : Result) : (s.complete r).curve = s.curve := rfl
@[simp] theorem State.complete_inputs (r : Result) : (s.complete r).inputs = s.inputs := rfl
@[simp] theorem State.complete_reads (r : Result) : (s.complete r).reads = s.reads := rfl

@[simp] theorem State.toReset_xIn : (s.toReset).xIn = zeros s.curve := rfl
@[simp] theorem State.toReset_yIn : (s.toReset).yIn = zeros s.curve := rfl
@[simp] theorem State.toReset_xOut : (s.toReset).xOut = zeros s.curve := rfl
@[simp] theorem State.toReset_yOut : (s.toReset).yOut = zeros s.curve := rfl
@[simp] theorem State.toReset_busy : (s.toReset).busy = false := rfl
@[simp] theorem State.toReset_done : (s.toReset).done = false := rfl
@[simp] theorem State.toReset_valid : (s.toReset).valid = false := rfl
@[simp] theorem State.toReset_sign : (s.toReset).sign = false := rfl
@[simp] theorem State.toReset_ill : (s.toReset).ill = false := rfl
@[simp] theorem State.toReset_latOp : (s.toReset).latOp = .decompress := rfl
@[simp] theorem State.toReset_latS : (s.toReset).latS = false := rfl
@[simp] theorem State.toReset_latX : (s.toReset).latX = zeros s.curve := rfl
@[simp] theorem State.toReset_latY : (s.toReset).latY = zeros s.curve := rfl
@[simp] theorem State.toReset_curve : (s.toReset).curve = s.curve := rfl
@[simp] theorem State.toReset_inputs : (s.toReset).inputs = s.inputs := rfl
@[simp] theorem State.toReset_reads : (s.toReset).reads = s.reads := rfl

@[simp] theorem State.withInputs_xIn (es : List Event) : (s.withInputs es).xIn = s.xIn := rfl
@[simp] theorem State.withInputs_yIn (es : List Event) : (s.withInputs es).yIn = s.yIn := rfl
@[simp] theorem State.withInputs_xOut (es : List Event) : (s.withInputs es).xOut = s.xOut := rfl
@[simp] theorem State.withInputs_yOut (es : List Event) : (s.withInputs es).yOut = s.yOut := rfl
@[simp] theorem State.withInputs_busy (es : List Event) : (s.withInputs es).busy = s.busy := rfl
@[simp] theorem State.withInputs_done (es : List Event) : (s.withInputs es).done = s.done := rfl
@[simp] theorem State.withInputs_valid (es : List Event) : (s.withInputs es).valid = s.valid := rfl
@[simp] theorem State.withInputs_sign (es : List Event) : (s.withInputs es).sign = s.sign := rfl
@[simp] theorem State.withInputs_ill (es : List Event) : (s.withInputs es).ill = s.ill := rfl
@[simp] theorem State.withInputs_latOp (es : List Event) : (s.withInputs es).latOp = s.latOp := rfl
@[simp] theorem State.withInputs_latS (es : List Event) : (s.withInputs es).latS = s.latS := rfl
@[simp] theorem State.withInputs_latX (es : List Event) : (s.withInputs es).latX = s.latX := rfl
@[simp] theorem State.withInputs_latY (es : List Event) : (s.withInputs es).latY = s.latY := rfl
@[simp] theorem State.withInputs_curve (es : List Event) : (s.withInputs es).curve = s.curve := rfl
@[simp] theorem State.withInputs_inputs (es : List Event) : (s.withInputs es).inputs = es := rfl
@[simp] theorem State.withInputs_reads (es : List Event) : (s.withInputs es).reads = s.reads := rfl

@[simp] theorem State.returned_xIn (w : Word) : (s.returned w).xIn = s.xIn := rfl
@[simp] theorem State.returned_yIn (w : Word) : (s.returned w).yIn = s.yIn := rfl
@[simp] theorem State.returned_xOut (w : Word) : (s.returned w).xOut = s.xOut := rfl
@[simp] theorem State.returned_yOut (w : Word) : (s.returned w).yOut = s.yOut := rfl
@[simp] theorem State.returned_busy (w : Word) : (s.returned w).busy = s.busy := rfl
@[simp] theorem State.returned_done (w : Word) : (s.returned w).done = s.done := rfl
@[simp] theorem State.returned_valid (w : Word) : (s.returned w).valid = s.valid := rfl
@[simp] theorem State.returned_sign (w : Word) : (s.returned w).sign = s.sign := rfl
@[simp] theorem State.returned_ill (w : Word) : (s.returned w).ill = s.ill := rfl
@[simp] theorem State.returned_latOp (w : Word) : (s.returned w).latOp = s.latOp := rfl
@[simp] theorem State.returned_latS (w : Word) : (s.returned w).latS = s.latS := rfl
@[simp] theorem State.returned_latX (w : Word) : (s.returned w).latX = s.latX := rfl
@[simp] theorem State.returned_latY (w : Word) : (s.returned w).latY = s.latY := rfl
@[simp] theorem State.returned_curve (w : Word) : (s.returned w).curve = s.curve := rfl
@[simp] theorem State.returned_inputs (w : Word) : (s.returned w).inputs = s.inputs := rfl
@[simp] theorem State.returned_reads (w : Word) : (s.returned w).reads = w :: s.reads := rfl

@[simp] theorem State.withCommand_xIn (w : Word) : (s.withCommand w).xIn = s.xIn := rfl
@[simp] theorem State.withCommand_yIn (w : Word) : (s.withCommand w).yIn = s.yIn := rfl
@[simp] theorem State.withCommand_xOut (w : Word) : (s.withCommand w).xOut = s.xOut := rfl
@[simp] theorem State.withCommand_yOut (w : Word) : (s.withCommand w).yOut = s.yOut := rfl
@[simp] theorem State.withCommand_busy (w : Word) : (s.withCommand w).busy = false := rfl
@[simp] theorem State.withCommand_done (w : Word) : (s.withCommand w).done = s.done := rfl
@[simp] theorem State.withCommand_valid (w : Word) : (s.withCommand w).valid = s.valid := rfl
@[simp] theorem State.withCommand_sign (w : Word) : (s.withCommand w).sign = s.sign := rfl
@[simp] theorem State.withCommand_ill (w : Word) : (s.withCommand w).ill = s.ill := rfl
@[simp] theorem State.withCommand_latOp (w : Word) : (s.withCommand w).latOp = s.latOp := rfl
@[simp] theorem State.withCommand_latS (w : Word) : (s.withCommand w).latS = s.latS := rfl
@[simp] theorem State.withCommand_latX (w : Word) : (s.withCommand w).latX = s.latX := rfl
@[simp] theorem State.withCommand_latY (w : Word) : (s.withCommand w).latY = s.latY := rfl
@[simp] theorem State.withCommand_curve (w : Word) : (s.withCommand w).curve = s.curve := rfl
@[simp] theorem State.withCommand_inputs (w : Word) : (s.withCommand w).inputs = .write 0x000 w :: s.inputs := rfl
@[simp] theorem State.withCommand_reads (w : Word) : (s.withCommand w).reads = s.reads := rfl

@[simp] theorem State.withMarkers_xIn (m1 m2 : Bool) : (s.withMarkers m1 m2).xIn = s.xIn := rfl
@[simp] theorem State.withMarkers_yIn (m1 m2 : Bool) : (s.withMarkers m1 m2).yIn = s.yIn := rfl
@[simp] theorem State.withMarkers_xOut (m1 m2 : Bool) : (s.withMarkers m1 m2).xOut = s.xOut := rfl
@[simp] theorem State.withMarkers_yOut (m1 m2 : Bool) : (s.withMarkers m1 m2).yOut = s.yOut := rfl
@[simp] theorem State.withMarkers_busy (m1 m2 : Bool) : (s.withMarkers m1 m2).busy = s.busy := rfl
@[simp] theorem State.withMarkers_done (m1 m2 : Bool) : (s.withMarkers m1 m2).done = s.done := rfl
@[simp] theorem State.withMarkers_valid (m1 m2 : Bool) : (s.withMarkers m1 m2).valid = s.valid := rfl
@[simp] theorem State.withMarkers_sign (m1 m2 : Bool) : (s.withMarkers m1 m2).sign = s.sign := rfl
@[simp] theorem State.withMarkers_ill (m1 m2 : Bool) : (s.withMarkers m1 m2).ill = s.ill := rfl
@[simp] theorem State.withMarkers_latOp (m1 m2 : Bool) : (s.withMarkers m1 m2).latOp = s.latOp := rfl
@[simp] theorem State.withMarkers_latS (m1 m2 : Bool) : (s.withMarkers m1 m2).latS = s.latS := rfl
@[simp] theorem State.withMarkers_latX (m1 m2 : Bool) : (s.withMarkers m1 m2).latX = s.latX := rfl
@[simp] theorem State.withMarkers_latY (m1 m2 : Bool) : (s.withMarkers m1 m2).latY = s.latY := rfl
@[simp] theorem State.withMarkers_curve (m1 m2 : Bool) : (s.withMarkers m1 m2).curve = { s.curve with compressDefault := m1, compactDefault := m2 } := rfl
@[simp] theorem State.withMarkers_inputs (m1 m2 : Bool) : (s.withMarkers m1 m2).inputs = s.inputs := rfl
@[simp] theorem State.withMarkers_reads (m1 m2 : Bool) : (s.withMarkers m1 m2).reads = s.reads := rfl

end Sys2Proof.Machine
end

