-- ==== Sys2Proof/Laws/Ops.lean ====
section
/-! SUPPORT. One law for each shared operation: the command's life at the engine, `exec` as a whole, and the writes of
the register window. -/

namespace Sys2Proof.Machine

/-! ### The latches -/

theorem running_latched (i : Instr) (s : State) (ho : s.latOp = opOf i) (hs : s.latS = i.sign) : s.running = i := by
  cases i <;> simp_all [State.running, opOf, Instr.sign]

@[simp] theorem State.running_issue (i : Instr) (s : State) : (s.issue i).running = i :=
  running_latched i _ rfl rfl

@[simp] theorem State.running_withInputs (es : List Event) (s : State) : (s.withInputs es).running = s.running := rfl

@[simp] theorem State.running_returned (w : Word) (s : State) : (s.returned w).running = s.running := rfl

@[simp] theorem State.running_complete (r : Result) (s : State) : (s.complete r).running = s.running := rfl

/-! ### `runCommand` -/

theorem runCommand_idle {i : Instr} {r : Result} {s : State} (h : s.busy = false) :
    runCommand i r s = .next (s.issue i) := by simp [runCommand, h]

theorem runCommand_executing {i : Instr} {r : Result} {s : State} (h : s.Executing i) :
    runCommand i r s = .next (s.complete r) := by simp [runCommand, h.1, h.2]

/-- All that a command can do at the engine: be issued, be completed, or leave another command running. -/
theorem runCommand_cases {i : Instr} {r : Result} {s t : State} (h : runCommand i r s = .next t) :
    (s.busy = false ∧ t = s.issue i) ∨ (s.Executing i ∧ t = s.complete r) ∨
      (s.busy = true ∧ s.running ≠ i ∧ t = s) := by
  unfold runCommand at h
  split at h
  · split at h
    · cases h; exact .inr (.inl ⟨⟨‹_›, ‹_›⟩, rfl⟩)
    · cases h; exact .inr (.inr ⟨‹_›, ‹_›, rfl⟩)
  · cases h; exact .inl ⟨by simpa using ‹¬ s.busy = true›, rfl⟩

/-! ### `exec` -/

/-- The result `Exec` returns for the latched operands, with the machine's own draws (R42). -/
def execResult (i : Instr) (s : State) : Result :=
  match i with
  | .decompress _ =>
    decompressResult s.curve (Config.sqrtRoot s.curve) (Config.sqrtFail s.curve) s.latX s.latS
  | .decompact => decompactResult s.curve (Config.sqrtRoot s.curve) (Config.sqrtFail s.curve) s.latX
  | .compress => compressResult s.curve s.latX s.latY
  | .compact => compactResult s.curve s.latX s.latY

/-- The result depends on the instance and the latches alone (R32, R37). -/
theorem execResult_congr (i : Instr) {s t : State} (hc : t.curve = s.curve) (hs : t.latS = s.latS)
    (hx : t.latX = s.latX) (hy : t.latY = s.latY) : execResult i t = execResult i s := by
  cases i <;> simp [execResult, hc, hs, hx, hy]

@[simp] theorem execResult_withInputs (i : Instr) (es : List Event) (s : State) :
    execResult i (s.withInputs es) = execResult i s := execResult_congr i rfl rfl rfl rfl

theorem exec_eq (i : Instr) (s : State) : exec i s = runCommand i (execResult i s) s := by
  cases i <;> rfl

theorem execResult_shape (i : Instr) (s : State) : (execResult i s).Shape s.curve := by
  cases i
  · exact decompressResult_shape _ _ _ _
  · exact decompactResult_shape _ _ _
  · exact compressResult_shape _ _
  · exact compactResult_shape _ _

theorem exec_idle (i : Instr) {s : State} (h : s.busy = false) : exec i s = .next (s.issue i) := by
  rw [exec_eq, runCommand_idle h]

theorem exec_executing {i : Instr} {s : State} (h : s.Executing i) :
    exec i s = .next (s.complete (execResult i s)) := by rw [exec_eq, runCommand_executing h]

/-- `exec` always answers a next state: no command faults or is refused (R154). -/
theorem exec_next (i : Instr) (s : State) : ∃ t, exec i s = .next t := by
  rw [exec_eq, runCommand]
  split
  · split <;> exact ⟨_, rfl⟩
  · exact ⟨_, rfl⟩

theorem exec_cases {i : Instr} {s t : State} (h : exec i s = .next t) :
    (s.busy = false ∧ t = s.issue i) ∨ (s.Executing i ∧ t = s.complete (execResult i s)) ∨
      (s.busy = true ∧ s.running ≠ i ∧ t = s) := runCommand_cases (exec_eq i s ▸ h)

/-! ### Writes of the register window -/

@[simp] theorem setLane_length (c : Curve) (j : Nat) (w : Word) (B : FieldBytes) (k : Nat) :
    (setLane c j w B k).length = B.length := by unfold setLane; split <;> simp

@[simp] theorem setWord_length (c : Curve) (j : Nat) (w : Word) (B : FieldBytes) :
    (setWord c j w B).length = B.length := by simp [setWord]

theorem setLane_getD (c : Curve) (j : Nat) (w : Word) (B : FieldBytes) (k i : Nat) (hB : B.length = c.len) :
    (setLane c j w B k).getD i 0 = if i = 4 * j + k ∧ i < c.len then laneOf w k else B.getD i 0 := by
  unfold setLane
  split
  · rename_i h
    by_cases hi : i = 4 * j + k
    · subst hi
      simp [List.getD_eq_getElem?_getD, h, hB]
    · simp [List.getD_eq_getElem?_getD, Ne.symm hi, hi]
  · rename_i h
    rw [if_neg]
    rintro ⟨rfl, hlt⟩
    exact h hlt

/-- The bytes after a write of word `j`: its lanes at the bytes of that word below `L`, every other byte as before
(R53). -/
theorem setWord_getD (c : Curve) (j : Nat) (w : Word) (B : FieldBytes) (i : Nat) (hB : B.length = c.len) :
    (setWord c j w B).getD i 0 = if i / 4 = j ∧ i < c.len then laneOf w (i % 4) else B.getD i 0 := by
  simp only [setWord, List.foldl_cons, List.foldl_nil]
  rw [setLane_getD _ _ _ _ _ _ (by simp [hB]), setLane_getD _ _ _ _ _ _ (by simp [hB]),
    setLane_getD _ _ _ _ _ _ (by simp [hB]), setLane_getD _ _ _ _ _ _ hB]
  by_cases hlt : i < c.len
  · by_cases hj : i / 4 = j
    · have : i % 4 = 0 ∨ i % 4 = 1 ∨ i % 4 = 2 ∨ i % 4 = 3 := by omega
      rcases this with e | e | e | e
      · have hi : i = 4 * j := by omega
        subst hi; simp [hlt]
      · have hi : i = 4 * j + 1 := by omega
        subst hi; simp [hlt, show (4 * j + 1) / 4 = j by omega, show (4 * j + 1) % 4 = 1 by omega]
      · have hi : i = 4 * j + 2 := by omega
        subst hi; simp [hlt, show (4 * j + 2) / 4 = j by omega, show (4 * j + 2) % 4 = 2 by omega]
      · have hi : i = 4 * j + 3 := by omega
        subst hi; simp [hlt, show (4 * j + 3) / 4 = j by omega, show (4 * j + 3) % 4 = 3 by omega]
    · rw [if_neg (by omega), if_neg (by omega), if_neg (by omega), if_neg (by omega), if_neg (by omega)]
  · simp [hlt]

/-- All that a register write other than a command's can do: store a word of `X_IN` or of `Y_IN`, or nothing. -/
theorem regStore_cases (off : Nat) (w : Word) (s : State) :
    regStore off w s = s ∨
    (∃ j, target off = .field .xIn j ∧ j < nw s.curve ∧
      regStore off w s = { s with xIn := setWord s.curve j w s.xIn }) ∨
    (∃ j, target off = .field .yIn j ∧ j < nw s.curve ∧
      regStore off w s = { s with yIn := setWord s.curve j w s.yIn }) := by
  unfold regStore
  split
  · split
    · exact .inr (.inl ⟨_, ‹_›, ‹_›, rfl⟩)
    · exact .inl rfl
  · split
    · exact .inr (.inr ⟨_, ‹_›, ‹_›, rfl⟩)
    · exact .inl rfl
  all_goals exact .inl rfl

/-- A register write leaves everything but `X_IN` and `Y_IN` as it was. -/
theorem regStore_frame (off : Nat) (w : Word) (s : State) :
    regStore off w s = { s with xIn := (regStore off w s).xIn, yIn := (regStore off w s).yIn } := by
  rcases regStore_cases off w s with h | ⟨j, -, -, h⟩ | ⟨j, -, -, h⟩ <;> rw [h]

theorem regStore_xIn_length (off : Nat) (w : Word) (s : State) : (regStore off w s).xIn.length = s.xIn.length := by
  rcases regStore_cases off w s with h | ⟨j, -, -, h⟩ | ⟨j, -, -, h⟩ <;> simp [h]

theorem regStore_yIn_length (off : Nat) (w : Word) (s : State) : (regStore off w s).yIn.length = s.yIn.length := by
  rcases regStore_cases off w s with h | ⟨j, -, -, h⟩ | ⟨j, -, -, h⟩ <;> simp [h]

/-! ### The address map -/

/-- Word `j` of a field register is at `base + 4*j` (R51). -/
theorem target_field (r : FieldReg) : ∀ j < 32, target (baseOf r + 4 * j) = .field r j := by
  cases r <;> decide

theorem nw_le {c : Curve} (h : c.WellFormed) : nw c ≤ 32 := by
  have := h.len_le
  unfold nw; omega

end Sys2Proof.Machine
end

