-- ==== Sys2Proof/Laws/PerInstr.lean ====
section
/-! SUPPORT. A statement about every command as syntax, one lemma a constructor: its word selects its row of the
opcode map and its operation code is that of R71. -/

namespace Sys2Proof.Laws.OpcodeRow

/-- The word of `i` selects the row of `i`, and `OP` is the low four bits of the row's `match` (R71, R74). -/
def Statement (i : Instr) : Prop :=
  encode i &&& i.row.mask = i.row.matchWord ∧ fieldOp (encode i) = i.row.matchWord.extractLsb' 0 4

theorem decompress (yIsOdd : Bool) : Statement (.decompress yIsOdd) := by
  cases yIsOdd <;> exact ⟨by decide, by decide⟩

theorem decompact : Statement .decompact := ⟨by decide, by decide⟩

theorem compress : Statement .compress := ⟨by decide, by decide⟩

theorem compact : Statement .compact := ⟨by decide, by decide⟩

end Sys2Proof.Laws.OpcodeRow
end

