-- ==== Sys2Proof/Laws/Residue.lean ====
section
/-! SUPPORT. The residue flag of R96 (i) decided by one modular power, for fields too large to be searched. -/

namespace Sys2Proof.Machine

variable {c : Curve}

/-- Over the field of `p` elements, a residue is a square. -/
theorem residue_iff_isSquare (h : c.WellFormed) {v : Nat} (hv : v < c.p) :
    Residue c v ↔ IsSquare (v : ZMod c.p) := by
  have : NeZero c.p := ⟨h.prime.ne_zero⟩
  constructor
  · rintro ⟨t, -, rfl⟩
    exact ⟨(t : ZMod c.p), by simp [mul]⟩
  · rintro ⟨t, ht⟩
    refine ⟨t.val, t.val_lt, ?_⟩
    rw [mul, ← ZMod.val_mul, ← ht, ZMod.val_natCast, Nat.mod_eq_of_lt hv]

/-- A non-zero field element is a residue exactly when its `(p-1)/2`-th power is 1. -/
theorem residue_iff_pow (h : c.WellFormed) {v : Nat} (hv : v < c.p) (h0 : 0 < v) :
    Residue c v ↔ v ^ ((c.p - 1) / 2) % c.p = 1 := by
  have : Fact c.p.Prime := ⟨h.prime⟩
  have hne : (v : ZMod c.p) ≠ 0 := by
    rw [Ne, ZMod.natCast_eq_zero_iff]
    exact Nat.not_dvd_of_pos_of_lt h0 hv
  have hhalf : c.p / 2 = (c.p - 1) / 2 := by have := h.odd; omega
  have hcast := ZMod.natCast_eq_natCast_iff (v ^ ((c.p - 1) / 2)) 1 c.p
  rw [Nat.ModEq, Nat.mod_eq_of_lt h.prime.one_lt, Nat.cast_pow, Nat.cast_one] at hcast
  rw [residue_iff_isSquare h hv, ZMod.euler_criterion c.p hne, hhalf, hcast]

/-- `b^e mod p` by repeated squaring, for exponents of at most `n` bits. -/
def powMod (p : Nat) : Nat → Nat → Nat → Nat
  | 0, _, _ => 1 % p
  | n + 1, b, e =>
    if e % 2 = 1 then b * powMod p n (b * b % p) (e / 2) % p else powMod p n (b * b % p) (e / 2)

theorem powMod_eq (p n b e : Nat) (he : e < 2 ^ n) : powMod p n b e = b ^ e % p := by
  induction n generalizing b e with
  | zero => obtain rfl : e = 0 := by omega
            rfl
  | succ n ih =>
    have hsq : (b * b % p) ^ (e / 2) % p = b ^ (2 * (e / 2)) % p := by
      rw [← Nat.pow_mod, ← pow_two, ← pow_mul]
    rw [powMod, ih _ _ (by omega), hsq]
    split
    · rw [Nat.mul_mod_mod, ← pow_succ']
      congr 2; omega
    · congr 2; omega

/-- The residue flag by repeated squaring: what `sqrt` finds by search, in as many steps as `p` has bits. -/
theorem residue_iff_powMod (h : c.WellFormed) {v : Nat} (hv : v < c.p) (h0 : 0 < v) :
    Residue c v ↔ powMod c.p (8 * c.len) v ((c.p - 1) / 2) = 1 := by
  have hp : c.p < 2 ^ (8 * c.len) := by rw [pow_mul]; exact h.p_lt
  rw [residue_iff_pow h hv h0, powMod_eq _ _ _ _ (by omega)]

end Sys2Proof.Machine
end

