-- ==== Sys2Proof/Laws/Step.lean ====
section
/-! SUPPORT. What one step can do, said once: the equations of `step` for each move, and the one inversion law from
which every invariant is derived. -/

namespace Sys2Proof.Machine

theorem step_nil {s : State} (h : s.inputs = []) : step s = engineTurn s := by simp [step, nextMove, h]

theorem step_cons {s : State} {e : Event} {es : List Event} (h : s.inputs = e :: es) :
    step s = serve e (s.withInputs es) := by simp [step, nextMove, h]

theorem engineTurn_idle {s : State} (h : s.busy = false) : engineTurn s = .next s := by simp [engineTurn, h]

theorem engineTurn_busy {s : State} (h : s.busy = true) :
    engineTurn s = .next (s.complete (execResult s.running s)) := by
  simp [engineTurn, h, exec_executing (i := s.running) ⟨h, rfl⟩]

theorem commandWrite_busy {s : State} (w : Word) (h : s.busy = true) : commandWrite w s = .next s := by
  simp [commandWrite, h]

theorem commandWrite_illegal {s : State} {w : Word} {e : DecodeError} (h : s.busy = false) (hd : decode w = .error e) :
    commandWrite w s = .next s.illegal := by simp [commandWrite, h, hd]

theorem commandWrite_legal {s : State} {w : Word} {i : Instr} (h : s.busy = false) (hd : decode w = .ok i) :
    commandWrite w s = exec i s := by simp [commandWrite, h, hd]

theorem withInputs_nil {s : State} (h : s.inputs = []) : s.withInputs [] = s := by rw [State.withInputs, ← h]

/-- The step that takes a write to `CMD`. -/
theorem step_command {s : State} {w : Word} {es : List Event} (h : s.inputs = .write 0x000 w :: es) :
    step s = commandWrite w (s.withInputs es) := by rw [step_cons h]; simp [serve, onPort]

/-- The step that takes the engine's turn. -/
theorem step_engine {s : State} {es : List Event} (h : s.inputs = .engine :: es ∨ s.inputs = [] ∧ es = []) :
    step s = engineTurn (s.withInputs es) := by
  rcases h with h | ⟨h, rfl⟩
  · rw [step_cons h]; rfl
  · rw [step_nil h, withInputs_nil h]

/-- The step that takes a read. -/
theorem step_read {s : State} {off : Nat} {es : List Event} (h : s.inputs = .read off :: es)
    (ho : onPort off = true) : step s = .next ((s.withInputs es).returned (regRead (s.withInputs es) off)) := by
  rw [step_cons h]; simp [serve, ho]

/-- The step that takes a write to anything but `CMD`. -/
theorem step_store {s : State} {off : Nat} {w : Word} {es : List Event} (h : s.inputs = .write off w :: es)
    (ho : onPort off = true) (h0 : off ≠ 0) : step s = .next (regStore off w (s.withInputs es)) := by
  rw [step_cons h]; simp [serve, ho, h0]

/-- The step that takes a reset. -/
theorem step_reset {s : State} {es : List Event} (h : s.inputs = .reset :: es) :
    step s = .next (s.withInputs es).toReset := step_cons h

/-- The step that takes an access the port cannot carry. -/
theorem step_refused {s : State} {e : Event} {off : Nat} {es : List Event} (h : s.inputs = e :: es)
    (he : e = .read off ∨ ∃ w, e = .write off w) (ho : onPort off = false) :
    step s = .refused (.notPdeAccess off) := by
  rw [step_cons h]
  rcases he with rfl | ⟨w, rfl⟩ <;> simp [serve, ho]

theorem onPort_iff (off : Nat) : onPort off = true ↔ off % 4 = 0 ∧ off < 0x300 := by simp [onPort]

/-- The engine's part of a step: what an engine's turn can do. -/
theorem engineTurn_cases {s t : State} (h : engineTurn s = .next t) :
    (s.busy = false ∧ t = s) ∨ (s.busy = true ∧ t = s.complete (execResult s.running s)) := by
  cases hb : s.busy
  · rw [engineTurn_idle hb] at h; cases h; exact .inl ⟨rfl, rfl⟩
  · rw [engineTurn_busy hb] at h; cases h; exact .inr ⟨rfl, rfl⟩

/-- What a write to `CMD` can do (R38, R39, R40). -/
theorem commandWrite_cases {s t : State} {w : Word} (h : commandWrite w s = .next t) :
    (s.busy = true ∧ t = s) ∨
    (s.busy = false ∧ (∃ e, decode w = .error e) ∧ t = s.illegal) ∨
    (s.busy = false ∧ ∃ i, decode w = .ok i ∧ t = s.issue i) := by
  cases hb : s.busy
  · cases hd : decode w with
    | error e => rw [commandWrite_illegal hb hd] at h; cases h; exact .inr (.inl ⟨rfl, ⟨e, rfl⟩, rfl⟩)
    | ok i =>
      rw [commandWrite_legal hb hd, exec_idle i hb] at h; cases h
      exact .inr (.inr ⟨rfl, i, rfl, rfl⟩)
  · rw [commandWrite_busy w hb] at h; cases h; exact .inl ⟨rfl, rfl⟩

/-- What serving one move can do. -/
theorem serve_cases {e : Event} {s t : State} (h : serve e s = .next t) :
    (∃ off, e = .read off ∧ onPort off = true ∧ t = s.returned (regRead s off)) ∨
    (∃ off w, e = .write off w ∧ onPort off = true ∧ off ≠ 0 ∧ t = regStore off w s) ∨
    (∃ w, e = .write 0 w ∧ commandWrite w s = .next t) ∨
    (e = .engine ∧ engineTurn s = .next t) ∨
    (e = .reset ∧ t = s.toReset) := by
  cases e with
  | read off =>
    simp only [serve] at h
    split at h
    · cases h; exact .inl ⟨off, rfl, ‹_›, rfl⟩
    · cases h
  | write off w =>
    simp only [serve] at h
    split at h
    · split at h
      · subst off; exact .inr (.inr (.inl ⟨w, rfl, h⟩))
      · cases h; exact .inr (.inl ⟨off, w, rfl, ‹_›, ‹_›, rfl⟩)
    · cases h
  | engine => exact .inr (.inr (.inr (.inl ⟨rfl, h⟩)))
  | reset => cases h; exact .inr (.inr (.inr (.inr ⟨rfl, rfl⟩)))

/-- Everything a step can do. `u` is the state with the move taken off the list; the step is an idle turn, a read, a
store or a dropped command, an illegal command word, an issue, a completion, or reset. -/
theorem step_cases {s t : State} (h : step s = .next t) :
    ∃ es, (s.inputs = [] ∧ es = [] ∨ ∃ e, s.inputs = e :: es) ∧
      (t = s.withInputs es ∨
       (∃ w, t = (s.withInputs es).returned w) ∨
       (∃ off w, t = regStore off w (s.withInputs es)) ∨
       (s.busy = false ∧ t = (s.withInputs es).illegal) ∨
       (s.busy = false ∧ ∃ i, t = (s.withInputs es).issue i) ∨
       (s.busy = true ∧ t = (s.withInputs es).complete (execResult s.running (s.withInputs es))) ∨
       t = (s.withInputs es).toReset) := by
  cases hi : s.inputs with
  | nil =>
    rw [step_nil hi] at h
    have hs := withInputs_nil hi
    refine ⟨[], .inl ⟨rfl, rfl⟩, ?_⟩
    rw [hs]
    rcases engineTurn_cases h with ⟨-, rfl⟩ | ⟨hb, rfl⟩
    · exact .inl rfl
    · exact .inr (.inr (.inr (.inr (.inr (.inl ⟨hb, rfl⟩)))))
  | cons e es =>
    rw [step_cons hi] at h
    refine ⟨es, .inr ⟨e, rfl⟩, ?_⟩
    rcases serve_cases h with ⟨off, -, -, rfl⟩ | ⟨off, w, -, -, -, rfl⟩ | ⟨w, -, hw⟩ | ⟨-, he⟩ | ⟨-, rfl⟩
    · exact .inr (.inl ⟨_, rfl⟩)
    · exact .inr (.inr (.inl ⟨off, w, rfl⟩))
    · rcases commandWrite_cases hw with ⟨-, rfl⟩ | ⟨hb, -, rfl⟩ | ⟨hb, i, -, rfl⟩
      · exact .inl rfl
      · exact .inr (.inr (.inr (.inl ⟨hb, rfl⟩)))
      · exact .inr (.inr (.inr (.inr (.inl ⟨hb, i, rfl⟩))))
    · rcases engineTurn_cases he with ⟨-, rfl⟩ | ⟨hb, rfl⟩
      · exact .inl rfl
      · exact .inr (.inr (.inr (.inr (.inr (.inl ⟨hb, rfl⟩)))))
    · exact .inr (.inr (.inr (.inr (.inr (.inr rfl)))))

/-- `steps` is the host's own runner. -/
theorem steps_eq_run (n : Nat) (s : State) : steps n s = Host.Core.run Sys2Proof.core n s := by
  induction n generalizing s with
  | zero => rfl
  | succ n ih =>
    cases h : step s <;> have h' : Sys2Proof.core.step s = _ := h <;> simp only [steps, Host.Core.run, h, h', ih] <;> rfl

end Sys2Proof.Machine
end

