-- ==== Sys2Proof/Laws/Window.lean ====
section
/-! SUPPORT. The register window: which register an offset selects, what a field register's words read and store, and
the lanes of a word (R51 to R57). -/

namespace Sys2Proof.Machine

/-- Everything an offset of the port can select (R51). -/
theorem target_cases {off : Nat} (ho : onPort off = true) :
    (target off = .cmd ∧ off = 0x000) ∨ (target off = .status ∧ off = 0x004) ∨ (target off = .cap ∧ off = 0x008) ∨
    (target off = .reserved ∧ 0x00C ≤ off ∧ off < 0x100) ∨
    ∃ r j, j < 32 ∧ target off = .field r j ∧ off = baseOf r + 4 * j := by
  obtain ⟨h4, hlt⟩ := (onPort_iff off).1 ho
  by_cases h : off < 0x100
  · by_cases h0 : off = 0x000
    · exact .inl ⟨by simp [target, h0], h0⟩
    by_cases h1 : off = 0x004
    · exact .inr (.inl ⟨by simp [target, h1], h1⟩)
    by_cases h2 : off = 0x008
    · exact .inr (.inr (.inl ⟨by simp [target, h2], h2⟩))
    · exact .inr (.inr (.inr (.inl ⟨by simp [target, h0, h1, h2, h], by omega, h⟩)))
  · refine .inr (.inr (.inr (.inr ?_)))
    obtain ⟨r, j, hj, he⟩ : ∃ r j, j < 32 ∧ off = baseOf r + 4 * j := by
      by_cases h1 : off < 0x180
      · exact ⟨.xIn, (off - 0x100) / 4, by omega, by show off = 0x100 + _; omega⟩
      by_cases h2 : off < 0x200
      · exact ⟨.yIn, (off - 0x180) / 4, by omega, by show off = 0x180 + _; omega⟩
      by_cases h3 : off < 0x280
      · exact ⟨.xOut, (off - 0x200) / 4, by omega, by show off = 0x200 + _; omega⟩
      · exact ⟨.yOut, (off - 0x280) / 4, by omega, by show off = 0x280 + _; omega⟩
    exact ⟨r, j, hj, he ▸ target_field r j hj, he⟩

/-- What a word of a field register reads as (R52, R57). -/
theorem regRead_field (s : State) (r : FieldReg) {j : Nat} (hj : j < 32) :
    regRead s (baseOf r + 4 * j) = if j < nw s.curve then wordOf s.curve (s.fieldReg r) j else 0 := by
  simp only [regRead, target_field r j hj]

/-- A read depends on the four field registers, the flags and the instance alone. -/
theorem regRead_congr {s t : State} (hc : t.curve = s.curve) (hr : ∀ r, t.fieldReg r = s.fieldReg r)
    (hs : statusWord t = statusWord s) (off : Nat) : regRead t off = regRead s off := by
  simp only [regRead, hc, hr, hs]

/-- A write of a word of `X_IN` (R53). -/
theorem regStore_xIn {s : State} {j : Nat} (hj : j < nw s.curve) (h32 : j < 32) (w : Word) :
    regStore (0x100 + 4 * j) w s = { s with xIn := setWord s.curve j w s.xIn } := by
  have h : target (0x100 + 4 * j) = _ := target_field .xIn j h32
  simp only [regStore, h, if_pos hj]

/-- A write of a word of `Y_IN` (R53). -/
theorem regStore_yIn {s : State} {j : Nat} (hj : j < nw s.curve) (h32 : j < 32) (w : Word) :
    regStore (0x180 + 4 * j) w s = { s with yIn := setWord s.curve j w s.yIn } := by
  have h : target (0x180 + 4 * j) = _ := target_field .yIn j h32
  simp only [regStore, h, if_pos hj]

theorem toNat_append_byte {n : Nat} (x : BitVec n) (b : Byte) : (x ++ b).toNat = x.toNat * 2 ^ 8 + b.toNat := by
  rw [BitVec.toNat_append, ← Nat.shiftLeft_add_eq_or_of_lt b.isLt, Nat.shiftLeft_eq]

/-- The value of a word of a field register (R56). -/
theorem wordOf_toNat (c : Curve) (B : FieldBytes) (j : Nat) :
    (wordOf c B j).toNat = (byteAt c B (4 * j)).toNat + (byteAt c B (4 * j + 1)).toNat * 2 ^ 8 +
      (byteAt c B (4 * j + 2)).toNat * 2 ^ 16 + (byteAt c B (4 * j + 3)).toNat * 2 ^ 24 := by
  unfold wordOf
  rw [toNat_append_byte, toNat_append_byte, toNat_append_byte]
  ring

/-- The lanes of a word of a field register are its bytes (R56). -/
theorem laneOf_wordOf (c : Curve) (B : FieldBytes) (j : Nat) {k : Nat} (hk : k < 4) :
    laneOf (wordOf c B j) k = byteAt c B (4 * j + k) := by
  have h0 := (byteAt c B (4 * j)).isLt
  have h1 := (byteAt c B (4 * j + 1)).isLt
  have h2 := (byteAt c B (4 * j + 2)).isLt
  have h3 := (byteAt c B (4 * j + 3)).isLt
  rw [← BitVec.toNat_inj, laneOf, BitVec.extractLsb'_toNat, wordOf_toNat, Nat.shiftRight_eq_div_pow]
  have : k = 0 ∨ k = 1 ∨ k = 2 ∨ k = 3 := by omega
  rcases this with rfl | rfl | rfl | rfl
  · show _ % _ = (byteAt c B (4 * j)).toNat
    omega
  all_goals omega

theorem byteAt_getD {c : Curve} {B : FieldBytes} (hB : B.length = c.len) (i : Nat) : byteAt c B i = B.getD i 0 := by
  unfold byteAt
  split
  · rfl
  · rw [List.getD_eq_getElem?_getD, List.getElem?_eq_none (by omega), Option.getD_none]

end Sys2Proof.Machine
end

