-- ==== Sys2Proof/Tests/Slice0.lean ====
section
/-! SUPPORT. Tests of the definitions against the spec's own examples and vectors (95_test_vectors.md; the expected
values are the spec's), the smoke tests of the well-formedness checks, and for every obligation with hypotheses a
concrete state that meets them. -/

namespace Sys2Proof.Tests

open Sys2Proof Sys2Proof.Machine

/-! ### Instances and states -/

/-- `T11` of 95_test_vectors.md: it has a point with `y = (p-1)/2`. -/
def t11 : Curve := { p := 11, a := 1, b := 1, len := 1, compressDefault := false, compactDefault := false }

/-- `T16` of 95_test_vectors.md: a two-byte field. -/
def t16 : Curve := { p := 65519, a := 5, b := 7, len := 2, compressDefault := false, compactDefault := true }

/-- The toy curve with `L = 5`, so that a register has two words and padding. -/
def wide : Curve := { Curve.t97 with len := 5 }

/-- The idle state of an instance with the operands `x` and `y` and the moves `es` to come. -/
def idle (c : Curve) (x y : FieldBytes) (es : List Event) : State := { State.resetOf c es with xIn := x, yIn := y }

/-- The state in which the engine runs `i` on the operands `x` and `y`. -/
def running (c : Curve) (i : Instr) (x y : FieldBytes) (es : List Event) : State := (idle c x y es).issue i

/-- The next state of an outcome, if it has one. -/
def nextOf (o : Host.Outcome State Fault Refusal) : Option State :=
  match o with
  | .next s => some s
  | .fault _ => none
  | .refused _ => none

theorem t97_wellFormed : Curve.t97.WellFormed := by constructor <;> norm_num [Curve.t97]

theorem t11_wellFormed : t11.WellFormed := by constructor <;> norm_num [t11]

theorem t16_wellFormed : t16.WellFormed := by constructor <;> norm_num [t16]

theorem otherMarkers_wellFormed :
    ({ Curve.t97 with compressDefault := false, compactDefault := true } : Curve).WellFormed := by
  constructor <;> norm_num [Curve.t97]

theorem wide_wellFormed : wide.WellFormed := by constructor <;> norm_num [wide, Curve.t97]

/-! ### Well-formedness: an ill-formed term for each check, which the check refuses (R5, R6) -/

theorem test_illFormed_prime : ¬ ({ Curve.t97 with p := 95 } : Curve).WellFormed := fun h => by
  have := h.prime; norm_num at this

theorem test_illFormed_odd : ¬ ({ Curve.t97 with p := 2, a := 1, b := 1 } : Curve).WellFormed := fun h => by
  have := h.odd; norm_num at this

theorem test_illFormed_a : ¬ ({ Curve.t97 with a := 97 } : Curve).WellFormed := fun h => absurd h.a_lt (by decide)

theorem test_illFormed_b : ¬ ({ Curve.t97 with b := 97 } : Curve).WellFormed := fun h => absurd h.b_lt (by decide)

theorem test_illFormed_len_zero : ¬ ({ Curve.t97 with len := 0 } : Curve).WellFormed := fun h =>
  absurd h.len_pos (by decide)

theorem test_illFormed_len_129 : ¬ ({ Curve.t97 with len := 129 } : Curve).WellFormed := fun h =>
  absurd h.len_le (by decide)

theorem test_illFormed_p_too_long : ¬ ({ Curve.t97 with p := 257 } : Curve).WellFormed := fun h =>
  absurd h.p_lt (by decide)

/-- The port's own check (R54): misaligned, beyond the window, and the last word of it. -/
theorem test_onPort : onPort 0x002 = false ∧ onPort 0x300 = false ∧ onPort 0x2FC = true := by decide

/-- No ill-formed command can be written (R72). -/
theorem test_every_command_wellFormed (i : Instr) : i.wellFormed = true := by cases i <;> rfl

/-! ### Decoding (table 2.1), each word bit by bit from `RSV1 S RSV0 OP` (R70) -/

theorem test_decode_decompress :
    decode (0b00000000000000000000000#23 ++ 0b0#1 ++ 0b0000#4 ++ 0b0001#4) = .ok (.decompress false) ∧
    decode (0b00000000000000000000000#23 ++ 0b1#1 ++ 0b0000#4 ++ 0b0001#4) = .ok (.decompress true) := by decide

theorem test_decode_decompact :
    decode (0b00000000000000000000000#23 ++ 0b0#1 ++ 0b0000#4 ++ 0b0010#4) = .ok .decompact := by decide

theorem test_decode_compress :
    decode (0b00000000000000000000000#23 ++ 0b0#1 ++ 0b0000#4 ++ 0b0011#4) = .ok .compress := by decide

theorem test_decode_compact :
    decode (0b00000000000000000000000#23 ++ 0b0#1 ++ 0b0000#4 ++ 0b0100#4) = .ok .compact := by decide

theorem test_decode_illegal_words :
    [0x00000000, 0x00000005, 0x0000000F, 0x00000100, 0x00000102, 0x00000103, 0x00000104, 0x00000011, 0x00000081,
      0x00000201, 0x00000301, 0x80000001, 0xFFFFFFFF].all (fun w => (decode w).toOption == none) = true := by decide

theorem test_decodeTableWord :
    decodeTableWord 32 0x00000101 = some (.decompress true) ∧ decodeTableWord 32 0x00000102 = none := by decide

/-! ### Lanes (table 2.2) and the window -/

theorem test_lanes_T40 : wordOf wide [0x60, 0x7F, 0xFA, 0xC6, 0x88] 0 = 0xC6FA7F60 ∧
    wordOf wide [0x60, 0x7F, 0xFA, 0xC6, 0x88] 1 = 0x00000088 := by decide

/-- `WR X_IN[1], 0xFFFFFF02` stores lane 0 only, and `WR X_IN[2]` nothing (table 2.2, instance `T40`). -/
theorem test_padding_write :
    (regStore 0x104 0xFFFFFF02 (idle wide [0, 0, 0, 0, 3] (zeros wide) [])).xIn = [0, 0, 0, 0, 2] ∧
    (regStore 0x108 0x12345678 (idle wide [0, 0, 0, 0, 3] (zeros wide) [])).xIn = [0, 0, 0, 0, 3] := by decide

theorem test_cap_T97 : regRead State.reset 0x008 = 0x00000101 := by decide

/-! ### The commands on the source's point `(3, 6)` and the corners (L1, tables 2.3, 2.4, 2.6), for both draws -/

theorem test_decompress_source_point : ∀ pick : Bool,
    decompressResult Curve.t97 (fun _ => pick) id [0x03] false = ⟨true, [0x03], [0x06], false⟩ ∧
    decompressResult Curve.t97 (fun _ => pick) id [0x03] true = ⟨true, [0x03], [0x5B], false⟩ := by decide

theorem test_decompress_order_two_and_failures : ∀ pick : Bool,
    decompressResult Curve.t97 (fun _ => pick) id [0x1E] true = ⟨true, [0x1E], [0x00], false⟩ ∧
    decompressResult Curve.t97 (fun _ => pick) id [0x02] true = failResult Curve.t97 ∧
    decompressResult Curve.t97 (fun _ => pick) id [0x61] true = failResult Curve.t97 := by decide

theorem test_decompact_T97 : ∀ pick : Bool,
    decompactResult Curve.t97 (fun _ => pick) id [0x03] = ⟨true, [0x03], [0x06], false⟩ ∧
    decompactResult Curve.t97 (fun _ => pick) id [0x01] = ⟨true, [0x01], [0x2B], false⟩ := by decide

theorem test_decompact_T11 : ∀ pick : Bool,
    decompactResult t11 (fun _ => pick) id [0x01] = ⟨true, [0x01], [0x05], false⟩ ∧
    decompactResult t11 (fun _ => pick) id [0x05] = failResult t11 := by decide

theorem test_compress_T97 :
    nextOf (exec .compress (running Curve.t97 .compress [0x03] [0x5B] [])) =
      some { running Curve.t97 .compress [0x03] [0x5B] [] with
        xOut := [0x03], valid := true, sign := true, busy := false, done := true } ∧
    compressResult Curve.t97 [0x03] [0x67] = failResult Curve.t97 := by decide

theorem test_compact_T11 :
    compactResult t11 [0x01] [0x05] = ⟨true, [0x01], [0x00], false⟩ ∧
    nextOf (exec .compact (running t11 .compact [0x01] [0x06] [])) =
      some { running t11 .compact [0x01] [0x06] [] with busy := false, done := true } := by decide

/-- `T16` (table 2.5), for every draw: through the laws, with no search of the field. -/
theorem test_decompress_T16 (root : Nat → Bool) (fail : Nat → Nat) :
    decompressResult t16 root fail [0x12, 0x34] true = ⟨true, [0x12, 0x34], [0xDA, 0x17], false⟩ :=
  (decompressResult_of_point t16_wellFormed root fail (y := 0xDA17) rfl ⟨by decide, by decide, by decide⟩
    (.inl (by decide))).trans (by decide)

theorem test_decompress_T16_non_residue (root : Nat → Bool) (fail : Nat → Nat) (s : Bool) :
    decompressResult t16 root fail [0xAB, 0xCD] s = failResult t16 :=
  decompressResult_fail t16_wellFormed root fail (.inr fun h =>
    absurd ((residue_iff_powMod t16_wellFormed (by decide) (by decide)).1 h) (by decide))

/-- The machine's own draws, through the law: `DECOMPRESS 1` on `x = 3` (program P1). -/
theorem test_exec_decompress_P1 :
    exec (.decompress true) (running Curve.t97 (.decompress true) [0x03] [0x00] []) =
      .next { running Curve.t97 (.decompress true) [0x03] [0x00] [] with
        xOut := [0x03], yOut := [0x5B], valid := true, busy := false, done := true } := by
  have h := decompressResult_of_point t97_wellFormed (Config.sqrtRoot Curve.t97) (Config.sqrtFail Curve.t97)
    (xb := [0x03]) (y := 91) (s := true) rfl ⟨by decide, by decide, by decide⟩ (.inl (by decide))
  exact (exec_executing (i := .decompress true) ⟨rfl, rfl⟩).trans (congrArg (fun r => Host.Outcome.next (State.complete r _)) h)

/-- `DECOMPACT` on `x = 1` with the machine's own draws. -/
theorem test_exec_decompact :
    exec .decompact (running Curve.t97 .decompact [0x01] [0x00] []) =
      .next { running Curve.t97 .decompact [0x01] [0x00] [] with
        xOut := [0x01], yOut := [0x2B], valid := true, busy := false, done := true } := by
  have h := decompactResult_of_point t97_wellFormed (Config.sqrtRoot Curve.t97) (Config.sqrtFail Curve.t97)
    (xb := [0x01]) (y := 43) rfl ⟨by decide, by decide, by decide⟩ (by decide)
  exact (exec_executing (i := .decompact) ⟨rfl, rfl⟩).trans (congrArg (fun r => Host.Outcome.next (State.complete r _)) h)

/-! ### Steps -/

/-- The first command after reset is issued by the very next step (program P6), and `STATUS` then reads busy. -/
theorem test_step_withFetchWord :
    (nextOf (step (State.reset.withFetchWord 32 0x00000001))).map (fun s => (s.running, statusWord s)) =
      some (.decompress false, 0x00000001) := by decide

/-- An illegal word (program P4). -/
theorem test_step_illegal :
    (nextOf (step (idle Curve.t97 [0x03] [0x00] [.write 0x000 0x00000102]))).map statusWord = some 0x00000012 := by
  decide

/-- An operand written while busy is taken, and the latched one stays (program P4). -/
theorem test_step_write_while_busy :
    (nextOf (step (running Curve.t97 (.decompress false) [0x03] [0x00] [.write 0x100 0x00000002]))).map
      (fun s => (s.xIn, s.latX)) = some ([0x02], [0x03]) := by decide

/-- Reset during a command (program P6). -/
theorem test_step_reset_while_busy :
    (nextOf (step (running Curve.t97 (.decompress true) [0x00] [0x00] [.reset]))).map statusWord = some 0x00000000 := by
  decide

/-! ### Witnesses: the hypotheses of every obligation can be met together -/

theorem inv_idle : (idle Curve.t97 [0x03] [0x06] []).Inv := by
  constructor <;> first | exact t97_wellFormed | decide

theorem residue_three : Residue Curve.t97 (rhs Curve.t97 3) := ⟨6, by decide, by decide⟩

theorem not_residue_two : ¬ Residue Curve.t97 (rhs Curve.t97 2) := leastRoot_none (by decide)

theorem onCurve_source_point : OnCurve Curve.t97 3 6 := ⟨by decide, by decide, by decide⟩

theorem onCurve_boundary : OnCurve t11 1 5 := ⟨by decide, by decide, by decide⟩

theorem witness_ResetAbandonsRunningCommand :
    (running Curve.t97 .compact [0x03] [0x06] [.reset]).inputs = .reset :: [] := rfl

theorem witness_WordsSelectRowsOfOpcodeMap :
    decode 0x00000101 = .ok (.decompress true) ∧
    (0x00000101 : Word) &&& (Instr.decompress false).row.mask = (Instr.decompress false).row.matchWord := by decide

theorem witness_IllegalWordsAndTheirEffect :
    let s := idle Curve.t97 [0x03] [0x06] [.write 0x000 0x00000102, .write 0x000 0x00000001]
    s.busy = false ∧ s.inputs = .write 0x000 0x00000102 :: .write 0x000 0x00000001 :: [] ∧
      (∃ e, decode 0x00000102 = .error e) ∧ decode 0x00000001 = .ok (.decompress false) :=
  ⟨rfl, rfl, ⟨.signNotTaken, by decide⟩, by decide⟩

theorem witness_DecodeAndEncodeAgree :
    Instr.decompact.wellFormed = true ∧ decode 0x00000002 = .ok .decompact := by decide

theorem witness_StepRunsTheDecodedCommand :
    let s := idle Curve.t97 [0x03] [0x06] [.write 0x000 0x00000004]
    s.busy = false ∧ s.inputs = .write 0x000 0x00000004 :: [] ∧ decode 0x00000004 = .ok .compact := by decide

theorem witness_EngineTurnRunsTheLatchedCommand :
    (let s := running Curve.t97 .compact [0x03] [0x06] [.engine]; s.inputs = .engine :: [] ∧ s.busy = true) ∧
    (let s := running Curve.t97 .compact [0x03] [0x06] []; s.inputs = [] ∧ s.busy = true) ∧
    (let s := idle Curve.t97 [0x03] [0x06] [.engine]; s.inputs = .engine :: [] ∧ s.busy = false) := by decide

theorem witness_BusyEngineDropsCommandWord :
    let s := running Curve.t97 .compact [0x03] [0x06] [.write 0x000 0x00000004]
    s.busy = true ∧ s.inputs = .write 0x000 0x00000004 :: [] := by decide

theorem witness_IllegalWordClearsResults :
    let s := idle Curve.t97 [0x03] [0x06] [.write 0x000 0x00000000]
    s.busy = false ∧ s.inputs = .write 0x000 0x00000000 :: [] ∧ ∃ e, decode 0x00000000 = .error e :=
  ⟨rfl, rfl, ⟨.reservedOp, by decide⟩⟩

theorem witness_LegalCommandIsIssued : (idle Curve.t97 [0x03] [0x06] []).busy = false := rfl

theorem witness_CompletionWritesTheResultOfExec :
    let s := running Curve.t97 (.decompress true) [0x03] [0x06] [.engine]
    s.busy = true ∧ s.inputs = .engine :: [] := by decide

theorem witness_IssueThenWaitReadsCompletedStatus :
    let s := idle Curve.t97 [0x03] [0x06] (issueCommand .compress :: waitAfter 2 ++ [])
    s.busy = false ∧ s.inputs = issueCommand .compress :: waitAfter 2 ++ [] := by decide

/-- Both clauses of the sign: the root of the parity asked for, and the root 0 with `S = 1`. -/
theorem witness_DecompressReturnsRootOfAskedParity :
    (running Curve.t97 (.decompress true) [0x03] [0x00] []).Executing (.decompress true) ∧
    (running Curve.t97 (.decompress true) [0x03] [0x00] []).latX.length = Curve.t97.len ∧
    OnCurve Curve.t97 (int [0x03]) 91 ∧ 91 % 2 = true.toNat ∧ OnCurve Curve.t97 (int [0x1E]) 0 :=
  ⟨⟨rfl, rfl⟩, rfl, ⟨by decide, by decide, by decide⟩, rfl, ⟨by decide, by decide, by decide⟩⟩

/-- At the boundary `y = (p-1)/2`. -/
theorem witness_DecompactReturnsSmallerRoot :
    t11.WellFormed ∧ (running t11 .decompact [0x01] [0x00] []).Executing .decompact ∧
    (running t11 .decompact [0x01] [0x00] []).latX.length = t11.len ∧ OnCurve t11 (int [0x01]) 5 ∧
    5 = (t11.p - 1) / 2 :=
  ⟨t11_wellFormed, ⟨rfl, rfl⟩, rfl, onCurve_boundary, rfl⟩

theorem witness_CompressReturnsXAndParity :
    let s := running Curve.t97 .compress [0x03] [0x06] []
    s.curve.WellFormed ∧ s.Executing .compress ∧ s.latX.length = s.curve.len ∧
      OnCurve s.curve (int s.latX) (int s.latY) :=
  ⟨t97_wellFormed, ⟨rfl, rfl⟩, rfl, onCurve_source_point⟩

theorem witness_CompactReturnsX :
    let s := running t11 .compact [0x01] [0x05] []
    s.curve.WellFormed ∧ s.Executing .compact ∧ s.latX.length = s.curve.len ∧
      OnCurve s.curve (int s.latX) (int s.latY) ∧ int s.latY ≤ (s.curve.p - 1) / 2 :=
  ⟨t11_wellFormed, ⟨rfl, rfl⟩, rfl, onCurve_boundary, by decide⟩

/-- The hypotheses, and each cause alone: `x = p`, a non-residue, `y = p`, off the curve, `y = (p+1)/2`. -/
theorem witness_FailureHasOneShape :
    (running Curve.t97 .compact [0x03] [0x5B] []).Executing .compact ∧
    (running Curve.t97 .compact [0x03] [0x5B] []).latX.length = Curve.t97.len ∧
    Curve.t97.p ≤ int [0x61] ∧ ¬ Residue Curve.t97 (rhs Curve.t97 (int [0x02])) ∧
    mul Curve.t97 (int [0x07]) (int [0x07]) ≠ rhs Curve.t97 (int [0x03]) ∧ (t11.p - 1) / 2 < int [0x06] :=
  ⟨⟨rfl, rfl⟩, rfl, by decide, not_residue_two, by decide, by decide⟩

theorem witness_DecompressDoesNotDependOnBackendRoot :
    Curve.t97.WellFormed ∧ ([0x03] : FieldBytes).length = Curve.t97.len ∧ OnCurve Curve.t97 (int [0x03]) 6 ∧
    rhs Curve.t97 (int [0x03]) ≠ 0 ∧ parity 6 = false ∧
    int [0x60] < Curve.t97.p ∧ rhs Curve.t97 (int [0x60]) = 0 :=
  ⟨t97_wellFormed, rfl, onCurve_source_point, by decide, rfl, by decide, by decide⟩

theorem witness_DecompactDoesNotDependOnBackendRoot :
    t11.WellFormed ∧ ([0x01] : FieldBytes).length = t11.len ∧ OnCurve t11 (int [0x01]) 5 ∧ 5 ≤ (t11.p - 1) / 2 :=
  ⟨t11_wellFormed, rfl, onCurve_boundary, by decide⟩

theorem witness_DecompressOfOrderTwoPointIgnoresSign :
    let s := running Curve.t97 (.decompress true) [0x60] [0x00] []
    s.curve.WellFormed ∧ s.Executing (.decompress true) ∧ s.latX.length = s.curve.len ∧
      int s.latX < s.curve.p ∧ rhs s.curve (int s.latX) = 0 :=
  ⟨t97_wellFormed, ⟨rfl, rfl⟩, rfl, by decide, by decide⟩

/-- The hypotheses, with a result that is valid. -/
theorem witness_DecodedPointsLieOnTheCurve :
    let s := running Curve.t97 .decompact [0x01] [0x00] []
    s.curve.WellFormed ∧ s.Executing .decompact ∧ s.latX.length = s.curve.len ∧
      ∃ t, exec .decompact s = .next t ∧ t.valid = true :=
  ⟨t97_wellFormed, ⟨rfl, rfl⟩, rfl, _, test_exec_decompact, rfl⟩

theorem witness_DecompactIsOneOfTheDecompressResults :
    Curve.t97.WellFormed ∧ ([0x03] : FieldBytes).length = Curve.t97.len ∧
    (decompactResult Curve.t97 (fun _ => false) id [0x03]).valid = true :=
  ⟨t97_wellFormed, rfl, by decide⟩

/-- An idle and a busy state before a command word. -/
theorem witness_CommandWriteHasFourOutcomes :
    (let s := idle Curve.t97 [0x03] [0x06] [.write 0x000 0x00000003, .engine];
      s.Inv ∧ s.busy = false ∧ decode 0x00000003 = .ok .compress ∧ (∃ e, decode 0x00000103 = .error e)) ∧
    (let s := running Curve.t97 .compress [0x03] [0x06] [.write 0x000 0x00000003, .engine];
      s.Inv ∧ s.busy = true) :=
  ⟨⟨by constructor <;> first | exact t97_wellFormed | decide, rfl, by decide, .signNotTaken, by decide⟩,
    by constructor <;> first | exact t97_wellFormed | decide, rfl⟩

theorem witness_CommandsChangeOnlyFlagsAndResults :
    let s := idle Curve.t97 [0x03] [0x06] []
    exec .compress s = .next (s.issue .compress) ∧ (0x100 ≠ 0x004 ∧ ¬ (0x200 ≤ 0x100 ∧ 0x100 < 0x300)) :=
  ⟨exec_idle .compress rfl, by decide⟩

/-- The last offset of the window, the last word of a register, and a word at `NW`. -/
theorem witness_RegReadTable :
    0x2FC % 4 = 0 ∧ 0x2FC < 0x300 ∧ (idle wide (zeros wide) (zeros wide) [.read 0x2FC]).inputs = .read 0x2FC :: [] ∧
    wide.WellFormed ∧ 1 < nw wide ∧
    (0x108 ≠ 0x004 ∧ 0x108 ≠ 0x008 ∧ ∀ j, j < nw wide →
      0x108 ≠ 0x100 + 4 * j ∧ 0x108 ≠ 0x180 + 4 * j ∧ 0x108 ≠ 0x200 + 4 * j ∧ 0x108 ≠ 0x280 + 4 * j) :=
  ⟨rfl, by decide, rfl, wide_wellFormed, by decide, by decide⟩

/-- Each clause: `CMD`, the last word of `X_IN` and of `Y_IN`, and the word at `NW`. -/
theorem witness_RegWriteTable :
    (idle wide (zeros wide) (zeros wide) [.write 0x104 0xFFFFFF02]).Inv ∧ 0x104 % 4 = 0 ∧ 0x104 < 0x300 ∧
    (1 < nw wide ∧ 0x104 = 0x100 + 4 * 1 ∧ 0x184 = 0x180 + 4 * 1) ∧
    (0x108 ≠ 0x000 ∧ ∀ j, j < nw wide → 0x108 ≠ 0x100 + 4 * j ∧ 0x108 ≠ 0x180 + 4 * j) :=
  ⟨by constructor <;> first | exact wide_wellFormed | decide, rfl, by decide, by decide, by decide⟩

/-- Each clause at the first value of its range: reserved offset, word `NW`, padding lane `L mod 4`. -/
theorem witness_ReservedSpaceReadsZeroAndIgnoresWrites :
    wide.WellFormed ∧ (0x00C ≤ 0x00C ∧ 0x00C < 0x100 ∧ 0x00C % 4 = 0) ∧ (nw wide ≤ 2 ∧ 2 < 32) ∧
    (1 < nw wide ∧ wide.len ≤ 4 * 1 + 1) ∧
    (∀ k' < 4, k' ≠ 1 → laneOf 0x00000002 k' = laneOf 0x0000FF02 k') ∧
    (idle wide (zeros wide) (zeros wide) [.write 0x00C 1]).inputs = .write 0x00C 1 :: [] :=
  ⟨wide_wellFormed, by decide, by decide, by decide, by decide, rfl⟩

theorem witness_OnlyPdeAccessesAreAdmitted :
    (idle Curve.t97 [0x03] [0x06] [.read 0x2FC]).inputs = .read 0x2FC :: [] ∧
    (0x2FC % 4 = 0 ∧ 0x2FC < 0x300) ∧ (0x300 ≤ 0x300) ∧ 0x002 % 4 ≠ 0 := by decide

theorem witness_LanesAndByteOrder :
    ([0x01, 0x02, 0x03, 0x04, 0x05] : FieldBytes).length = wide.len ∧ wide.len = 5 ∧
    ({ Curve.t97 with len := 2 } : Curve).len = 2 := by decide

theorem witness_LoadSequenceWritesTheOperand :
    let s := idle wide (zeros wide) (zeros wide) (ldx wide [1, 2, 3, 4, 5] ++ [])
    s.Inv ∧ ([1, 2, 3, 4, 5] : FieldBytes).length = s.curve.len ∧ s.inputs = ldx s.curve [1, 2, 3, 4, 5] ++ [] :=
  ⟨by constructor <;> first | exact wide_wellFormed | decide, rfl, rfl⟩

theorem witness_StepsKeepTheInstance : step State.reset = .next State.reset := rfl

theorem witness_InvariantHoldsAtReset : Curve.t97.WellFormed := t97_wellFormed

theorem witness_EveryStepKeepsTheInvariant :
    let s := idle Curve.t97 [0x03] [0x06] []
    s.Inv ∧ step s = .next s := ⟨inv_idle, rfl⟩

theorem witness_ReachableFlagsDescribeTheLastCommand :
    Curve.t97.WellFormed ∧ Reachable Curve.t97 ((State.resetOf Curve.t97 []).issue .compress) :=
  ⟨t97_wellFormed, .next (.start [issueCommand .compress])
    ((step_command (w := encode .compress) (es := []) rfl).trans
      ((commandWrite_legal (i := .compress) rfl (by decide)).trans (exec_idle .compress rfl)))⟩

/-- A state with a valid result, before a step. -/
theorem witness_EveryStepKeepsValidResultsOnTheCurve :
    let s : State := { idle Curve.t97 [0x03] [0x06] [] with xOut := [0x03], yOut := [0x06], done := true, valid := true }
    s.Inv ∧ s.ResultOnCurve ∧ s.valid = true ∧ step s = .next s :=
  ⟨by constructor <;> first | exact t97_wellFormed | decide,
    fun _ => ⟨⟨6, onCurve_source_point⟩, by decide⟩, rfl, rfl⟩

theorem witness_StatusLayoutAndValues :
    (idle Curve.t97 [0x03] [0x06] []).Inv ∧
    (idle Curve.t97 [0x03] [0x06] [.read 0x004]).inputs = .read 0x004 :: [] ∧
    (idle Curve.t97 [0x03] [0x06] [.write 0x004 0xFFFFFFFF]).inputs = .write 0x004 0xFFFFFFFF :: [] :=
  ⟨inv_idle, rfl, rfl⟩

theorem witness_NoFaultAndNoStuckState :
    (∀ e ∈ ([.write 0x00C 1, .read 0x2FC, .engine, .reset] : List Event), e.admitted = true) ∧
    (let s := running Curve.t97 .compact [0x03] [0x06] [.engine]; s.busy = true ∧ s.inputs = .engine :: []) := by
  decide

theorem witness_AcceptedCommandCompletes :
    let s := running Curve.t97 .compact [0x03] [0x06] [.write 0x000 1, .read 0x004, .engine]
    s.busy = true ∧ ∀ e ∈ s.inputs, e.admitted = true ∧ e ≠ .reset := by decide

/-- Two different states that differ in the idle latches alone. -/
theorem witness_IdleLatchesAreUnobservable :
    let s := idle Curve.t97 [0x03] [0x06] []
    let s' := { s with latOp := .compact, latX := [0x07] }
    SameButIdleLatches s s' ∧ s ≠ s' ∧ step s = .next s :=
  ⟨⟨rfl, by decide⟩, by decide, rfl⟩

theorem witness_MarkersChangeOnlyTheCapWord :
    let s := idle Curve.t97 [0x03] [0x06] []
    s.Inv ∧ step s = .next s ∧ ∀ es, s.inputs ≠ .read 0x008 :: es := ⟨inv_idle, rfl, fun _ h => nomatch h⟩

/-- Two idle states on instances with different markers, one of whose hosts overwrites `X_IN` and writes `CMD` while
the command runs. -/
theorem witness_ResultIsFixedAtIssue :
    let s := idle Curve.t97 [0x03] [0x06] (.write 0x000 0x00000003 :: [] ++ .engine :: [])
    let s' := idle { Curve.t97 with compressDefault := false, compactDefault := true } [0x03] [0x06]
      (.write 0x000 0x00000003 :: [.write 0x100 0x00000002, .write 0x000 0x00000001] ++ .engine :: [])
    s.Inv ∧ s'.Inv ∧ s'.curve = { s.curve with compressDefault := false, compactDefault := true } ∧
    s.busy = false ∧ s'.busy = false ∧ decode 0x00000003 = .ok .compress ∧ s.xIn = s'.xIn ∧ s.yIn = s'.yIn ∧
    (∀ e ∈ ([.write 0x100 0x00000002, .write 0x000 0x00000001] : List Event), e.hostAccess = true) :=
  ⟨by constructor <;> first | exact t97_wellFormed | decide,
    by constructor <;> first | exact otherMarkers_wellFormed | decide,
    rfl, rfl, rfl, by decide, rfl, rfl, by decide⟩

theorem witness_ResultsAndOperandsPersist :
    let s := idle Curve.t97 [0x03] [0x06] [.write 0x200 0x00000055]
    s.inputs = .write 0x200 0x00000055 :: [] ∧ step s = .next (s.withInputs []) ∧ s.busy = false ∧
    (∀ w, Event.write 0x200 0x00000055 ≠ .write 0x000 w) ∧
    (∀ off w, Event.write 0x200 0x00000055 = .write off w → ¬ (0x100 ≤ off ∧ off < 0x180)) :=
  ⟨rfl, rfl, rfl, fun _ h => (by cases h), fun _ _ h => by cases h; decide⟩

theorem witness_DecompressInvertsCompress :
    let s := idle Curve.t97 [0x03] [0x06] []
    s.curve.WellFormed ∧ s.busy = false ∧ OnCurve s.curve 3 6 ∧ s.xIn = feEncode s.curve 3 ∧
      s.yIn = feEncode s.curve 6 := ⟨t97_wellFormed, rfl, onCurve_source_point, by decide, by decide⟩

theorem witness_DecompactInvertsCompact :
    let s := idle t11 [0x01] [0x05] []
    s.curve.WellFormed ∧ s.busy = false ∧ OnCurve s.curve 1 5 ∧ 5 ≤ (s.curve.p - 1) / 2 ∧
      s.xIn = feEncode s.curve 1 ∧ s.yIn = feEncode s.curve 5 :=
  ⟨t11_wellFormed, rfl, onCurve_boundary, by decide, by decide, by decide⟩

theorem witness_EncodeAcceptsEveryDecodedPoint :
    Curve.t97.WellFormed ∧ ([0x03] : FieldBytes).length = Curve.t97.len ∧
    (decompressResult Curve.t97 (fun _ => true) id [0x03] true).valid = true ∧ rhs Curve.t97 (int [0x03]) ≠ 0 ∧
    (decompactResult Curve.t97 (fun _ => true) id [0x03]).valid = true :=
  ⟨t97_wellFormed, rfl, by decide, by decide, by decide⟩

/-- The largest field element. -/
theorem witness_CanonicalEncodingIsUnique :
    Curve.t97.WellFormed ∧ 96 < Curve.t97.p ∧ ([0x60] : FieldBytes).length = Curve.t97.len ∧ int [0x60] = 96 ∧
    feDecode Curve.t97 [0x60] = (96, true) :=
  ⟨t97_wellFormed, by decide, rfl, by decide, by decide⟩

/-- The last accepted value, on the curve whose `0xFF` string is not canonical. -/
theorem witness_DecodeRejectsNonCanonicalBytes : Curve.t97.WellFormed ∧ int [0x60] < Curve.t97.p :=
  ⟨t97_wellFormed, by decide⟩

/-- A residue with a root, and a non-residue. -/
theorem witness_SqrtMeetsItsContract :
    Curve.t97.WellFormed ∧ (36 < Curve.t97.p ∧ 91 < Curve.t97.p ∧ mul Curve.t97 91 91 = 36) ∧
    (15 < Curve.t97.p ∧ ¬ ∃ u, u < Curve.t97.p ∧ mul Curve.t97 u u = 15) :=
  ⟨t97_wellFormed, by decide, by decide, leastRoot_none (c := Curve.t97) (v := 15) (by decide)⟩

/-- Each clause: a non-residue, a right-hand side of 0 and a non-zero residue. -/
theorem witness_CurveHasAtMostTwoPointsPerX :
    Curve.t97.WellFormed ∧ ¬ Residue Curve.t97 (rhs Curve.t97 2) ∧ rhs Curve.t97 96 = 0 ∧
    (Residue Curve.t97 (rhs Curve.t97 3) ∧ rhs Curve.t97 3 ≠ 0) ∧ 96 < Curve.t97.p :=
  ⟨t97_wellFormed, not_residue_two, by decide, ⟨residue_three, by decide⟩, by decide⟩

/-- Both ends of the range. -/
theorem witness_NegationFlipsParity : Curve.t97.WellFormed ∧ (1 ≤ 1 ∧ 1 < Curve.t97.p) ∧ (1 ≤ 96 ∧ 96 < Curve.t97.p) :=
  ⟨t97_wellFormed, by decide, by decide⟩

theorem witness_NegationLaws : Curve.t97.WellFormed ∧ 1 ≤ 96 ∧ 96 < Curve.t97.p :=
  ⟨t97_wellFormed, by decide, by decide⟩

end Sys2Proof.Tests
end

/-! ## Scope: the engine's turn, the curve descriptor, and the capability markers (O10, O34, O43) -/

namespace Sys2Proof.Machine

/-! ### The engine's turn -/

/-- A busy engine's turn is the next transition of the command it runs (R41). -/
theorem engineTurn_eq_exec_running {s : State} (h : s.busy = true) : engineTurn s = exec s.running s := if_pos h

/-- Settles O10: `step_engine` brings both forms of the turn to `engineTurn`. -/
theorem engineTurnRunsTheLatchedCommand : Obligations.EngineTurnRunsTheLatchedCommand := by
  intro s es h
  rw [step_engine h]
  constructor
  · exact fun hb => engineTurn_eq_exec_running (s := s.withInputs es) hb
  · exact fun hb => engineTurn_idle (s := s.withInputs es) hb

/-! ### The curve descriptor -/

@[simp] theorem regStore_curve (off : Nat) (w : Word) (s : State) : (regStore off w s).curve = s.curve := by
  rw [regStore_frame]

/-- No step changes the curve descriptor (R9, R35). -/
theorem step_curve {s t : State} (h : step s = .next t) : t.curve = s.curve := by
  obtain ⟨es, -, rfl | ⟨w, rfl⟩ | ⟨off, w, rfl⟩ | ⟨-, rfl⟩ | ⟨-, i, rfl⟩ | ⟨-, rfl⟩ | rfl⟩ := step_cases h
  case inr.inr.inl => exact regStore_curve off w _
  all_goals rfl

/-- `CAP` shows the curve descriptor and nothing else (R31). -/
@[simp] theorem regRead_cap (s : State) : regRead s 0x008 = capWord s.curve := rfl

/-- Settles O34: `CAP` is a function of the curve descriptor, which every step keeps. -/
theorem stepsKeepTheInstance : Obligations.StepsKeepTheInstance := by
  intro s t h
  have hc := step_curve h
  exact ⟨hc, by rw [regRead_cap, regRead_cap, hc]⟩

/-! ### Results do not depend on the backend's draws

The draws `Config.sqrtRoot` and `Config.sqrtFail` take the whole descriptor, markers included, so this is what keeps
the markers out of the results. -/

/-- The draws of R96 do not show in the result of `DECOMPRESS` (R111). -/
theorem decompressResult_draws_irrelevant {c : Curve} (h : c.WellFormed) {xb : FieldBytes} (hlen : xb.length = c.len)
    (s : Bool) (root root' : Nat → Bool) (fail fail' : Nat → Nat) :
    decompressResult c root fail xb s = decompressResult c root' fail' xb s := by
  rcases decompressResult_cases h root fail hlen s with ⟨hd, he⟩ | ⟨y, hy, hs, he⟩
  · rw [he, decompressResult_fail h root' fail' (by rwa [← Nat.not_lt, ← not_and_or])]
  · rw [he, decompressResult_of_point h root' fail' hlen hy hs]

/-- The draws of R96 do not show in the result of `DECOMPACT` (R122). -/
theorem decompactResult_draws_irrelevant {c : Curve} (h : c.WellFormed) {xb : FieldBytes} (hlen : xb.length = c.len)
    (root root' : Nat → Bool) (fail fail' : Nat → Nat) :
    decompactResult c root fail xb = decompactResult c root' fail' xb := by
  rcases decompactResult_cases h root fail hlen with ⟨hd, he⟩ | ⟨y, hy, hlow, he⟩
  · rw [he, decompactResult_fail h root' fail' (by rwa [← Nat.not_lt, ← not_and_or])]
  · rw [he, decompactResult_of_point h root' fail' hlen hy hlow]

/-! ### The capability markers commute with every operation (R7) -/

section Markers

variable {s t : State} (m1 m2 : Bool)

theorem withMarkers_withInputs (es : List Event) :
    (s.withMarkers m1 m2).withInputs es = (s.withInputs es).withMarkers m1 m2 := rfl

theorem withMarkers_issue (i : Instr) : (s.withMarkers m1 m2).issue i = (s.issue i).withMarkers m1 m2 := rfl

theorem withMarkers_illegal : (s.withMarkers m1 m2).illegal = s.illegal.withMarkers m1 m2 := rfl

theorem withMarkers_complete (r : Result) :
    (s.withMarkers m1 m2).complete r = (s.complete r).withMarkers m1 m2 := rfl

theorem withMarkers_toReset : (s.withMarkers m1 m2).toReset = s.toReset.withMarkers m1 m2 := rfl

@[simp] theorem running_withMarkers : (s.withMarkers m1 m2).running = s.running := rfl

theorem regStore_withMarkers (off : Nat) (w : Word) :
    regStore off w (s.withMarkers m1 m2) = (regStore off w s).withMarkers m1 m2 := by
  cases ht : target off with
  | field r j =>
    by_cases hj : j < nw s.curve
    · have hj' : j < nw (s.withMarkers m1 m2).curve := hj
      cases r <;> simp only [regStore, ht, if_pos hj, if_pos hj'] <;> rfl
    · have hj' : ¬ j < nw (s.withMarkers m1 m2).curve := hj
      cases r <;> simp only [regStore, ht, if_neg hj, if_neg hj']
  | _ => simp only [regStore, ht]

/-- `CAP` has one offset (R51). -/
theorem target_eq_cap {off : Nat} (h : target off = .cap) : off = 0x008 := by
  unfold target at h
  grind

/-- Only the word read from `CAP` shows the markers (R31). -/
theorem regRead_withMarkers {off : Nat} (h : off ≠ 0x008) : regRead (s.withMarkers m1 m2) off = regRead s off := by
  cases ht : target off with
  | cap => exact absurd (target_eq_cap ht) h
  | field r j => cases r <;> simp only [regRead, ht] <;> rfl
  | _ => simp only [regRead, ht] <;> rfl

/-- The result of a command does not depend on the markers, although the machine's draws may. -/
theorem execResult_withMarkers (i : Instr) (hwf : s.curve.WellFormed) (hlen : s.latX.length = s.curve.len) :
    execResult i (s.withMarkers m1 m2) = execResult i s := by
  cases i with
  | decompress b => exact decompressResult_draws_irrelevant hwf hlen s.latS _ _ _ _
  | decompact => exact decompactResult_draws_irrelevant hwf hlen _ _ _ _
  | compress => rfl
  | compact => rfl

theorem commandWrite_withMarkers {w : Word} (h : commandWrite w s = .next t) :
    commandWrite w (s.withMarkers m1 m2) = .next (t.withMarkers m1 m2) := by
  rcases commandWrite_cases h with ⟨hb, rfl⟩ | ⟨hb, ⟨e, hd⟩, rfl⟩ | ⟨hb, i, hd, rfl⟩
  · exact commandWrite_busy w hb
  · rw [commandWrite_illegal (s := s.withMarkers m1 m2) hb hd, withMarkers_illegal]
  · rw [commandWrite_legal (s := s.withMarkers m1 m2) hb hd, exec_idle (s := s.withMarkers m1 m2) i hb,
      withMarkers_issue]

theorem engineTurn_withMarkers (hwf : s.curve.WellFormed) (hlen : s.latX.length = s.curve.len)
    (h : engineTurn s = .next t) : engineTurn (s.withMarkers m1 m2) = .next (t.withMarkers m1 m2) := by
  rcases engineTurn_cases h with ⟨hb, rfl⟩ | ⟨hb, rfl⟩
  · exact engineTurn_idle hb
  · rw [engineTurn_busy (s := s.withMarkers m1 m2) hb, running_withMarkers, execResult_withMarkers m1 m2 _ hwf hlen,
      withMarkers_complete]

/-- One move with other markers: the same move, but for the word a read of `CAP` hands to the host. -/
theorem serve_withMarkers {e : Event} (hwf : s.curve.WellFormed) (hlen : s.latX.length = s.curve.len)
    (h : serve e s = .next t) :
    ∃ rs, serve e (s.withMarkers m1 m2) = .next { t.withMarkers m1 m2 with reads := rs } ∧
      (e ≠ .read 0x008 → rs = t.reads) := by
  rcases serve_cases h with ⟨off, rfl, ho, rfl⟩ | ⟨off, w, rfl, ho, h0, rfl⟩ | ⟨w, rfl, hw⟩ | ⟨rfl, he⟩ | ⟨rfl, rfl⟩
  · refine ⟨regRead (s.withMarkers m1 m2) off :: s.reads, by simp only [serve, if_pos ho]; rfl, fun hcap => ?_⟩
    rw [regRead_withMarkers m1 m2 (by rintro rfl; exact hcap rfl), State.returned_reads]
  · refine ⟨_, ?_, fun _ => rfl⟩
    simp only [serve, if_pos ho, if_neg h0, regStore_withMarkers]
    rfl
  · exact ⟨t.reads, commandWrite_withMarkers (t := t) m1 m2 hw, fun _ => rfl⟩
  · exact ⟨t.reads, engineTurn_withMarkers (t := t) m1 m2 hwf hlen he, fun _ => rfl⟩
  · exact ⟨s.reads, congrArg _ (withMarkers_toReset m1 m2), fun _ => rfl⟩

end Markers

/-- Settles O43: every operation commutes with a change of the markers, the completion because no result shows the
backend's draws, and of the reads all but that of `CAP`. -/
theorem markersChangeOnlyTheCapWord : Obligations.MarkersChangeOnlyTheCapWord := by
  intro s t m1 m2 hinv h
  cases hi : s.inputs with
  | nil =>
    rw [step_nil hi] at h
    refine ⟨t.reads, ?_, fun _ => rfl⟩
    rw [step_nil (s := s.withMarkers m1 m2) hi]
    exact engineTurn_withMarkers (t := t) m1 m2 hinv.curve_wf hinv.latX_len h
  | cons e es =>
    rw [step_cons hi] at h
    obtain ⟨rs, hs, hrs⟩ := serve_withMarkers (s := s.withInputs es) m1 m2 hinv.curve_wf hinv.latX_len h
    refine ⟨rs, ?_, fun hne => hrs fun he => hne es (by rw [he])⟩
    rw [step_cons (s := s.withMarkers m1 m2) hi, withMarkers_withInputs, hs]

end Sys2Proof.Machine

/-! ## State: the invariant and the flags, the hidden latches, the engine's transitions, and what persists
(O36, O42, O14, O27, O37, O39, O44, O45, O1, O9, O11, O12, O13, O35) -/

namespace Sys2Proof.Machine

/-! ### The invariant: one lemma for each thing a step can do -/

section Invariant

variable {s t : State}

theorem inv_resetOf {c : Curve} (h : c.WellFormed) (es : List Event) : (State.resetOf c es).Inv where
  curve_wf := h
  xIn_len := zeros_length c
  yIn_len := zeros_length c
  xOut_len := zeros_length c
  yOut_len := zeros_length c
  latX_len := zeros_length c
  latY_len := zeros_length c
  busy_clears := fun hb => nomatch hb
  valid_done := fun hv => nomatch hv
  ill_done := fun hi => nomatch hi
  invalid_empty := fun _ => ⟨rfl, rfl, rfl⟩
  sign_valid := fun hs => nomatch hs
  fresh_empty := fun _ _ => ⟨rfl, rfl, rfl, rfl, rfl⟩

theorem State.Inv.withInputs (h : s.Inv) (es : List Event) : (s.withInputs es).Inv := { h with }

theorem State.Inv.returned (h : s.Inv) (w : Word) : (s.returned w).Inv := { h with }

theorem State.Inv.regStore (h : s.Inv) (off : Nat) (w : Word) : (regStore off w s).Inv := by
  rcases regStore_cases off w s with he | ⟨j, -, -, he⟩ | ⟨j, -, -, he⟩ <;> rw [he]
  · exact h
  · exact { h with xIn_len := by rw [setWord_length, h.xIn_len] }
  · exact { h with yIn_len := by rw [setWord_length, h.yIn_len] }

theorem State.Inv.illegal (h : s.Inv) : s.illegal.Inv where
  curve_wf := h.curve_wf
  xIn_len := h.xIn_len
  yIn_len := h.yIn_len
  xOut_len := zeros_length s.curve
  yOut_len := zeros_length s.curve
  latX_len := h.latX_len
  latY_len := h.latY_len
  busy_clears := fun hb => nomatch hb
  valid_done := fun hv => nomatch hv
  ill_done := fun _ => ⟨rfl, rfl⟩
  invalid_empty := fun _ => ⟨rfl, rfl, rfl⟩
  sign_valid := fun hs => nomatch hs
  fresh_empty := fun hd => nomatch hd

theorem State.Inv.issue (h : s.Inv) (i : Instr) : (s.issue i).Inv where
  curve_wf := h.curve_wf
  xIn_len := h.xIn_len
  yIn_len := h.yIn_len
  xOut_len := zeros_length s.curve
  yOut_len := zeros_length s.curve
  latX_len := h.xIn_len
  latY_len := h.yIn_len
  busy_clears := fun _ => ⟨rfl, rfl, rfl, rfl, rfl, rfl⟩
  valid_done := fun hv => nomatch hv
  ill_done := fun hi => nomatch hi
  invalid_empty := fun _ => ⟨rfl, rfl, rfl⟩
  sign_valid := fun hs => nomatch hs
  fresh_empty := fun _ hb => nomatch hb

/-- Completion does not write `ILL` (R41); that it is 0 then is relation (i) of the running command. -/
theorem State.Inv.complete (h : s.Inv) (hb : s.busy = true) {r : Result} (hr : r.Shape s.curve) :
    (s.complete r).Inv := by
  obtain ⟨-, -, -, hill, -, -⟩ := h.busy_clears hb
  exact {
    curve_wf := h.curve_wf
    xIn_len := h.xIn_len
    yIn_len := h.yIn_len
    xOut_len := hr.xo_len
    yOut_len := hr.yo_len
    latX_len := h.latX_len
    latY_len := h.latY_len
    busy_clears := fun hb => nomatch hb
    valid_done := fun _ => ⟨rfl, hill⟩
    ill_done := fun hi => absurd (hill.symm.trans hi) Bool.false_ne_true
    invalid_empty := fun hv => by
      obtain ⟨hxo, hyo, hsign⟩ := hr.invalid_empty hv
      exact ⟨hsign, hxo, hyo⟩
    sign_valid := hr.sign_valid
    fresh_empty := fun hd => nomatch hd }

theorem State.Inv.toReset (h : s.Inv) : s.toReset.Inv := { inv_resetOf h.curve_wf s.inputs with }

theorem State.Inv.step (h : s.Inv) (hs : step s = .next t) : t.Inv := by
  obtain ⟨es, -, hcase⟩ := step_cases hs
  have hu : (s.withInputs es).Inv := h.withInputs es
  rcases hcase with rfl | ⟨w, rfl⟩ | ⟨off, w, rfl⟩ | ⟨-, rfl⟩ | ⟨-, i, rfl⟩ | ⟨hb, rfl⟩ | rfl
  · exact hu
  · exact hu.returned w
  · exact hu.regStore off w
  · exact hu.illegal
  · exact hu.issue i
  · exact hu.complete hb (execResult_shape s.running (s.withInputs es))
  · exact hu.toReset

/-- Every reachable state has the invariant, and the curve descriptor the run began with. -/
theorem Reachable.inv_and_curve {c : Curve} (hc : c.WellFormed) (h : Reachable c s) : s.Inv ∧ s.curve = c := by
  induction h with
  | start es => exact ⟨inv_resetOf hc es, rfl⟩
  | next _ hs ih => exact ⟨ih.1.step hs, (step_curve hs).trans ih.2⟩

end Invariant

/-- Settles O36: each thing a step can do (`step_cases`) keeps the invariant, the completion because every result has
the shape of R42 and R151. -/
theorem everyStepKeepsTheInvariant : Obligations.EveryStepKeepsTheInvariant := fun _ _ h hs => h.step hs

/-- Settles O35: all registers are `0^L` and all flags 0. -/
theorem invariantHoldsAtReset : Obligations.InvariantHoldsAtReset :=
  ⟨fun _ es hc => inv_resetOf hc es, inv_resetOf (by constructor <;> norm_num [Curve.t97]) []⟩

/-- Settles O37: the six relations are part of the invariant, which every reachable state has. -/
theorem reachableFlagsDescribeTheLastCommand : Obligations.ReachableFlagsDescribeTheLastCommand := by
  intro c s hc hr
  obtain ⟨h, rfl⟩ := hr.inv_and_curve hc
  exact ⟨h.busy_clears, h.valid_done, h.ill_done, h.invalid_empty, h.sign_valid, h.fresh_empty⟩

/-! ### `STATUS` -/

/-- The six values of `STATUS` (R23), one for each combination of flags that R29 leaves. -/
theorem State.Inv.statusWord_values {s : State} (h : s.Inv) :
    statusWord s = 0x00 ∨ statusWord s = 0x01 ∨ statusWord s = 0x02 ∨ statusWord s = 0x06 ∨
      statusWord s = 0x0E ∨ statusWord s = 0x12 := by
  cases hb : s.busy with
  | true =>
    obtain ⟨hd, hv, hg, hi, -, -⟩ := h.busy_clears hb
    simp [statusWord, hb, hd, hv, hg, hi]
  | false =>
    cases hd : s.done with
    | false =>
      obtain ⟨hv, hg, hi, -, -⟩ := h.fresh_empty hd hb
      simp [statusWord, hb, hd, hv, hg, hi]
    | true =>
      cases hv : s.valid with
      | false =>
        obtain ⟨hg, -, -⟩ := h.invalid_empty hv
        cases hi : s.ill <;> simp [statusWord, hb, hd, hv, hg, hi]
      | true =>
        obtain ⟨-, hi⟩ := h.valid_done hv
        cases hg : s.sign <;> simp [statusWord, hb, hd, hv, hg, hi]

@[simp] theorem regRead_status (s : State) : regRead s 0x004 = statusWord s := rfl

/-- Settles O39: the values come from the invariant, the two accesses from the equations of `step`. -/
theorem statusLayoutAndValues : Obligations.StatusLayoutAndValues := by
  refine ⟨fun _ => rfl, fun s h => ?_, fun s es hi => ?_, fun s w es hi => ?_⟩
  · rw [regRead_status]
    exact h.statusWord_values
  · exact step_read hi rfl
  · exact step_store hi rfl (by decide)

/-! ### The hidden latches -/

/-- `s` with other content in the hidden latches. -/
def State.withLatches (op : Op) (b : Bool) (lx ly : FieldBytes) (s : State) : State :=
  { s with latOp := op, latS := b, latX := lx, latY := ly }

section Latches

variable {s t : State} (op : Op) (b : Bool) (lx ly : FieldBytes)

/-- No read shows the latches, whether or not a command runs. -/
theorem regRead_withLatches (off : Nat) : regRead (s.withLatches op b lx ly) off = regRead s off :=
  regRead_congr rfl (fun r => by cases r <;> rfl) rfl off

theorem regStore_withLatches (off : Nat) (w : Word) :
    regStore off w (s.withLatches op b lx ly) = (regStore off w s).withLatches op b lx ly := by
  have hn : nw (s.withLatches op b lx ly).curve = nw s.curve := rfl
  cases ht : target off with
  | field r j => cases r <;> simp only [regStore, ht, hn] <;> split <;> rfl
  | _ => simp only [regStore, ht]

theorem withLatches_issue (i : Instr) : (s.withLatches op b lx ly).issue i = s.issue i := rfl

theorem withLatches_illegal : (s.withLatches op b lx ly).illegal = s.illegal.withLatches op b lx ly := rfl

theorem withLatches_toReset : (s.withLatches op b lx ly).toReset = s.toReset := rfl

theorem SameButIdleLatches.refl (s : State) : SameButIdleLatches s s := ⟨rfl, fun _ => rfl⟩

/-- `SameButIdleLatches` is equality, or other latches in an idle engine. -/
theorem sameButIdleLatches_iff {s' : State} : SameButIdleLatches s s' ↔
    s' = s ∨ s.busy = false ∧ ∃ op b lx ly, s' = s.withLatches op b lx ly := by
  constructor
  · rintro ⟨hl, hb⟩
    cases h : s.busy with
    | true => exact .inl (hb h)
    | false => exact .inr ⟨rfl, _, _, _, _, hl⟩
  · rintro (rfl | ⟨hb, op, b, lx, ly, rfl⟩)
    · exact .refl s'
    · exact ⟨rfl, fun h => absurd (hb.symm.trans h) Bool.false_ne_true⟩

theorem sameButIdleLatches_withLatches (hb : s.busy = false) : SameButIdleLatches s (s.withLatches op b lx ly) :=
  sameButIdleLatches_iff.2 (.inr ⟨hb, op, b, lx, ly, rfl⟩)

/-- A command word on an idle engine: the issue overwrites the latches, an illegal word leaves them hidden. -/
theorem commandWrite_withLatches {w : Word} (hb : s.busy = false) (h : commandWrite w s = .next t) :
    ∃ t', commandWrite w (s.withLatches op b lx ly) = .next t' ∧ SameButIdleLatches t t' := by
  rcases commandWrite_cases h with ⟨hb', -⟩ | ⟨-, ⟨e, hd⟩, rfl⟩ | ⟨-, i, hd, rfl⟩
  · exact absurd (hb.symm.trans hb') Bool.false_ne_true
  · refine ⟨s.illegal.withLatches op b lx ly, ?_, sameButIdleLatches_withLatches op b lx ly rfl⟩
    rw [commandWrite_illegal (s := s.withLatches op b lx ly) hb hd, withLatches_illegal]
  · refine ⟨s.issue i, ?_, .refl _⟩
    rw [commandWrite_legal (s := s.withLatches op b lx ly) hb hd, exec_idle (s := s.withLatches op b lx ly) i hb,
      withLatches_issue]

/-- One move of an idle engine with other latches is the same move. -/
theorem serve_withLatches {e : Event} (hb : s.busy = false) (h : serve e s = .next t) :
    ∃ t', serve e (s.withLatches op b lx ly) = .next t' ∧ SameButIdleLatches t t' := by
  rcases serve_cases h with ⟨off, rfl, ho, rfl⟩ | ⟨off, w, rfl, ho, h0, rfl⟩ | ⟨w, rfl, hw⟩ | ⟨rfl, he⟩ | ⟨rfl, rfl⟩
  · refine ⟨(s.returned (regRead s off)).withLatches op b lx ly, ?_, sameButIdleLatches_withLatches op b lx ly hb⟩
    simp only [serve, if_pos ho, regRead_withLatches]
    rfl
  · refine ⟨(regStore off w s).withLatches op b lx ly, ?_, sameButIdleLatches_withLatches op b lx ly ?_⟩
    · simp only [serve, if_pos ho, if_neg h0, regStore_withLatches]
    · rw [regStore_frame]
      exact hb
  · exact commandWrite_withLatches op b lx ly hb hw
  · rcases engineTurn_cases he with ⟨-, rfl⟩ | ⟨hb', -⟩
    · exact ⟨_, engineTurn_idle (s := t.withLatches op b lx ly) hb, sameButIdleLatches_withLatches op b lx ly hb⟩
    · exact absurd (hb.symm.trans hb') Bool.false_ne_true
  · exact ⟨s.toReset, congrArg Host.Outcome.next (withLatches_toReset op b lx ly), .refl _⟩

/-- One step of an idle engine with other latches is the same step. -/
theorem step_withLatches (hb : s.busy = false) (h : step s = .next t) :
    ∃ t', step (s.withLatches op b lx ly) = .next t' ∧ SameButIdleLatches t t' := by
  cases hi : s.inputs with
  | nil =>
    rw [step_nil hi, engineTurn_idle hb] at h
    cases h
    refine ⟨_, ?_, sameButIdleLatches_withLatches op b lx ly hb⟩
    rw [step_nil (s := s.withLatches op b lx ly) hi, engineTurn_idle (s := s.withLatches op b lx ly) hb]
  | cons e es =>
    rw [step_cons hi] at h
    rw [step_cons (s := s.withLatches op b lx ly) hi]
    exact serve_withLatches (s := s.withInputs es) op b lx ly hb h

end Latches

/-- Settles O42: the relation leaves equal states, or an idle engine with other latches, which every move either
overwrites (issue, reset) or leaves idle. -/
theorem idleLatchesAreUnobservable : Obligations.IdleLatchesAreUnobservable := by
  intro s s' h
  rcases sameButIdleLatches_iff.1 h with rfl | ⟨hb, op, b, lx, ly, rfl⟩
  · exact ⟨fun _ => rfl, fun t ht => ⟨t, ht, .refl t⟩⟩
  · exact ⟨regRead_withLatches op b lx ly, fun t ht => step_withLatches op b lx ly hb ht⟩

/-- Settles O1: the reset state's fields are `0^L` and 0, and `regRead_withLatches` hides the latches. -/
theorem resetStateIsEmpty : Obligations.ResetStateIsEmpty := by
  intro c es s
  exact ⟨rfl, rfl, rfl, rfl, rfl, rfl, rfl, rfl, rfl, rfl, rfl, rfl, regRead_withLatches⟩

/-! ### The engine's transitions -/

/-- Settles O9: an idle engine's command write runs the decoded command. -/
theorem stepRunsTheDecodedCommand : Obligations.StepRunsTheDecodedCommand := fun s _ _ es hb hi hd =>
  (step_command hi).trans (commandWrite_legal (s := s.withInputs es) hb hd)

/-- Settles O11: a busy engine drops the word before it is decoded. -/
theorem busyEngineDropsCommandWord : Obligations.BusyEngineDropsCommandWord := fun s w es hb hi =>
  (step_command hi).trans (commandWrite_busy (s := s.withInputs es) w hb)

/-- Settles O12: an idle engine takes an illegal word to `State.illegal`, whose `STATUS` is ILL and DONE. -/
theorem illegalWordClearsResults : Obligations.IllegalWordClearsResults := by
  rintro s w es hb hi ⟨e, hd⟩
  exact ⟨(s.withInputs es).illegal,
    (step_command hi).trans (commandWrite_illegal (s := s.withInputs es) hb hd), rfl, rfl⟩

/-- Settles O13: an idle engine's `exec` is the issue, and the step is that `exec` (O9). -/
theorem legalCommandIsIssued : Obligations.LegalCommandIsIssued := fun i s hb =>
  ⟨exec_idle i hb, fun w es hi hd =>
    (stepRunsTheDecodedCommand s w i es hb hi hd).trans (exec_idle (s := s.withInputs es) i hb)⟩

/-- The tuple of `Exec` of the command that the latches hold, by `LAT_OP` (R42). -/
theorem execResult_running (s : State) : execResult s.running s =
    match s.latOp with
    | .decompress => decompressResult s.curve (Config.sqrtRoot s.curve) (Config.sqrtFail s.curve) s.latX s.latS
    | .decompact => decompactResult s.curve (Config.sqrtRoot s.curve) (Config.sqrtFail s.curve) s.latX
    | .compress => compressResult s.curve s.latX s.latY
    | .compact => compactResult s.curve s.latX s.latY := by
  cases h : s.latOp <;> simp only [State.running, h] <;> rfl

/-- Settles O14: the turn of a busy engine is the completion with `execResult`, which has the shape of R42. -/
theorem completionWritesTheResultOfExec : Obligations.CompletionWritesTheResultOfExec := by
  intro s es hb hi
  refine ⟨execResult s.running s, execResult_running s, (execResult_shape s.running s).invalid_empty, ?_⟩
  rw [step_engine hi, engineTurn_busy (s := s.withInputs es) hb, execResult_withInputs]
  rfl

/-! ### The frame of the commands -/

/-- `STATUS` has one offset (R51). -/
theorem target_eq_status {off : Nat} (h : target off = .status) : off = 0x004 := by
  unfold target at h
  grind

/-- A field register has 32 words of the window (R51). -/
theorem target_eq_field {off : Nat} {r : FieldReg} {j : Nat} (h : target off = .field r j) :
    baseOf r ≤ off ∧ off < baseOf r + 0x80 := by
  unfold target at h
  cases r <;> grind [baseOf]

/-- Outside `STATUS` and the result registers the window shows the curve descriptor and the operands alone. -/
theorem regRead_congr_of_operands {s t : State} (hc : t.curve = s.curve) (hx : t.xIn = s.xIn) (hy : t.yIn = s.yIn)
    {off : Nat} (hs : off ≠ 0x004) (ho : ¬ (0x200 ≤ off ∧ off < 0x300)) : regRead t off = regRead s off := by
  cases ht : target off with
  | status => exact absurd (target_eq_status ht) hs
  | field r j =>
    have hr := target_eq_field ht
    cases r with
    | xIn => simp only [regRead, ht, State.fieldReg, hc, hx]
    | yIn => simp only [regRead, ht, State.fieldReg, hc, hy]
    | xOut => exact absurd ⟨hr.1, by have := hr.2; simp only [baseOf] at this; omega⟩ ho
    | yOut => exact absurd ⟨by have := hr.1; simp only [baseOf] at this; omega, hr.2⟩ ho
  | cmd => simp only [regRead, ht]
  | cap => simp only [regRead, ht, hc]
  | reserved => simp only [regRead, ht]

/-- Settles O27: the issue, the completion, and the untouched engine that runs another command. -/
theorem commandsChangeOnlyFlagsAndResults : Obligations.CommandsChangeOnlyFlagsAndResults := by
  intro i s t h
  rcases exec_cases h with ⟨hb, rfl⟩ | ⟨-, rfl⟩ | ⟨-, -, rfl⟩
  · exact ⟨rfl, rfl, rfl, rfl, rfl,
      fun _ => regRead_congr_of_operands (s.issue_curve i) (s.issue_xIn i) (s.issue_yIn i),
      fun hb' => absurd (hb.symm.trans hb') Bool.false_ne_true⟩
  · exact ⟨rfl, rfl, rfl, rfl, rfl,
      fun _ => regRead_congr_of_operands (s.complete_curve _) (s.complete_xIn _) (s.complete_yIn _),
      fun _ => ⟨rfl, rfl, rfl, rfl, rfl⟩⟩
  · exact ⟨rfl, rfl, rfl, rfl, rfl, fun _ _ _ => rfl, fun _ => ⟨rfl, rfl, rfl, rfl, rfl⟩⟩

/-! ### What persists -/

/-- A write outside `X_IN` leaves `X_IN` (R53). -/
theorem regStore_xIn_of_not_mem {off : Nat} (h : ¬ (0x100 ≤ off ∧ off < 0x180)) (w : Word) (s : State) :
    (regStore off w s).xIn = s.xIn := by
  rcases regStore_cases off w s with he | ⟨j, ht, -, -⟩ | ⟨j, -, -, he⟩
  · rw [he]
  · exact absurd (target_eq_field ht) h
  · rw [he]

/-- A write outside `Y_IN` leaves `Y_IN` (R53). -/
theorem regStore_yIn_of_not_mem {off : Nat} (h : ¬ (0x180 ≤ off ∧ off < 0x200)) (w : Word) (s : State) :
    (regStore off w s).yIn = s.yIn := by
  rcases regStore_cases off w s with he | ⟨j, -, -, he⟩ | ⟨j, ht, -, -⟩
  · rw [he]
  · rw [he]
  · exact absurd (target_eq_field ht) h

/-- A write to `CMD` reads the operands and never writes them. -/
theorem commandWrite_operands {s t : State} {w : Word} (h : commandWrite w s = .next t) :
    t.xIn = s.xIn ∧ t.yIn = s.yIn := by
  rcases commandWrite_cases h with ⟨-, rfl⟩ | ⟨-, -, rfl⟩ | ⟨-, i, -, rfl⟩ <;> exact ⟨rfl, rfl⟩

theorem engineTurn_operands {s t : State} (h : engineTurn s = .next t) : t.xIn = s.xIn ∧ t.yIn = s.yIn := by
  rcases engineTurn_cases h with ⟨-, rfl⟩ | ⟨-, rfl⟩ <;> exact ⟨rfl, rfl⟩

/-- Settles O45: of the moves `serve_cases` lists, an idle engine's turn, a read and a store keep the results, and
all but a store and reset keep the operands. -/
theorem resultsAndOperandsPersist : Obligations.ResultsAndOperandsPersist := by
  intro s t e es hi h hne
  rw [step_cons hi] at h
  rcases serve_cases h with ⟨off, rfl, -, rfl⟩ | ⟨off, w, rfl, -, -, rfl⟩ | ⟨w, rfl, hw⟩ | ⟨rfl, he⟩ | ⟨rfl, -⟩
  · exact ⟨fun _ _ => ⟨rfl, rfl, rfl, rfl, rfl, rfl⟩, fun _ => rfl, fun _ => rfl⟩
  · refine ⟨fun _ _ => ?_, fun hx => ?_, fun hy => ?_⟩
    · rw [regStore_frame]
      exact ⟨rfl, rfl, rfl, rfl, rfl, rfl⟩
    · exact regStore_xIn_of_not_mem (hx off w rfl) w (s.withInputs es)
    · exact regStore_yIn_of_not_mem (hy off w rfl) w (s.withInputs es)
  · obtain ⟨hx, hy⟩ := commandWrite_operands hw
    exact ⟨fun _ hcmd => absurd rfl (hcmd w), fun _ => hx, fun _ => hy⟩
  · obtain ⟨hx, hy⟩ := engineTurn_operands he
    refine ⟨fun hb _ => ?_, fun _ => hx, fun _ => hy⟩
    rw [engineTurn_idle (s := s.withInputs es) hb] at he
    cases he
    exact ⟨rfl, rfl, rfl, rfl, rfl, rfl⟩
  · exact absurd rfl hne

/-! ### The result of a command, from issue to completion -/

theorem steps_succ {s t : State} (h : step s = .next t) (n : Nat) : steps (n + 1) s = steps n t := by
  simp only [steps, h]

theorem steps_one (s : State) : steps 1 s = step s := by
  cases h : step s <;> simp only [steps, h]

theorem steps_add {s t : State} {m : Nat} (h : steps m s = .next t) (n : Nat) : steps (m + n) s = steps n t := by
  induction m generalizing s with
  | zero => cases h; rw [Nat.zero_add]
  | succ m ih =>
    cases hs : step s with
    | next u =>
      rw [steps_succ hs] at h
      rw [Nat.succ_add, steps_succ hs, ih h]
    | fault r => simp only [steps, hs, reduceCtorEq] at h
    | refused r => simp only [steps, hs, reduceCtorEq] at h

/-- `t` is still executing the command `s` executes, of the same curve descriptor and latched operands. -/
structure SameCommandRunning (s t : State) : Prop where
  busy : t.busy = true
  curve : t.curve = s.curve
  latOp : t.latOp = s.latOp
  latS : t.latS = s.latS
  latX : t.latX = s.latX
  latY : t.latY = s.latY

namespace SameCommandRunning

variable {s t u : State}

theorem refl (hb : s.busy = true) : SameCommandRunning s s := ⟨hb, rfl, rfl, rfl, rfl, rfl⟩

theorem trans (h : SameCommandRunning s t) (h' : SameCommandRunning t u) : SameCommandRunning s u where
  busy := h'.busy
  curve := h'.curve.trans h.curve
  latOp := h'.latOp.trans h.latOp
  latS := h'.latS.trans h.latS
  latX := h'.latX.trans h.latX
  latY := h'.latY.trans h.latY

theorem running_eq (h : SameCommandRunning s t) : t.running = s.running := by
  simp only [State.running, h.latOp, h.latS]

/-- The result to come is fixed by what the relation keeps (R32, R37). -/
theorem execResult_eq (h : SameCommandRunning s t) : execResult t.running t = execResult s.running s := by
  rw [h.running_eq, execResult_congr _ h.curve h.latS h.latX h.latY]

end SameCommandRunning

/-- A host access during a command, a write to `CMD` or to the operands among them, leaves the command running (R40). -/
theorem step_hostAccess {s : State} {e : Event} {es : List Event} (hb : s.busy = true) (he : e.hostAccess = true)
    (hi : s.inputs = e :: es) : ∃ t, step s = .next t ∧ t.inputs = es ∧ SameCommandRunning s t := by
  have hs : SameCommandRunning s (s.withInputs es) := ⟨hb, rfl, rfl, rfl, rfl, rfl⟩
  cases e with
  | read off => exact ⟨_, step_read hi he, rfl, { hs with }⟩
  | write off w =>
    by_cases h0 : off = 0x000
    · subst h0
      exact ⟨_, (step_command hi).trans (commandWrite_busy (s := s.withInputs es) w hb), rfl, hs⟩
    · refine ⟨_, step_store hi he h0, ?_⟩
      rw [regStore_frame]
      exact ⟨rfl, { hs with }⟩
  | engine => cases he
  | reset => cases he

/-- Any number of host accesses leaves the command running. -/
theorem steps_hostAccesses {s : State} {as es : List Event} (hb : s.busy = true) (hi : s.inputs = as ++ es)
    (ha : ∀ e ∈ as, e.hostAccess = true) :
    ∃ t, steps as.length s = .next t ∧ t.inputs = es ∧ SameCommandRunning s t := by
  induction as generalizing s with
  | nil => exact ⟨s, rfl, hi, .refl hb⟩
  | cons a as ih =>
    obtain ⟨ha, has⟩ := List.forall_mem_cons.1 ha
    obtain ⟨u, hu, hui, hsu⟩ := step_hostAccess hb ha hi
    obtain ⟨t, ht, hti, hut⟩ := ih hsu.busy hui has
    exact ⟨t, (steps_succ hu _).trans ht, hti, hsu.trans hut⟩

/-- A command issued, any host accesses, and the engine's turn: the completion writes the result that the latches
fixed at issue. -/
theorem steps_issue_hostAccesses_engine {s : State} {w : Word} {i : Instr} {as es : List Event} (hb : s.busy = false)
    (hd : decode w = .ok i) (hi : s.inputs = .write 0x000 w :: as ++ .engine :: es)
    (ha : ∀ e ∈ as, e.hostAccess = true) :
    ∃ u : State, steps (as.length + 2) s = .next (u.complete (execResult i (s.issue i))) := by
  have hissue : step s = .next ((s.withInputs (as ++ .engine :: es)).issue i) :=
    (stepRunsTheDecodedCommand s w i _ hb hi hd).trans (exec_idle (s := s.withInputs _) i hb)
  obtain ⟨v, hv, hvi, hrun⟩ := steps_hostAccesses (s := (s.withInputs (as ++ .engine :: es)).issue i) rfl rfl ha
  have hres : execResult v.running v = execResult i (s.issue i) := by
    rw [hrun.execResult_eq, State.running_issue]
    exact execResult_congr i rfl rfl rfl rfl
  refine ⟨v.withInputs es, ?_⟩
  calc steps (as.length + 2) s
      = steps (as.length + 1) ((s.withInputs (as ++ .engine :: es)).issue i) := steps_succ hissue _
    _ = steps 1 v := steps_add hv 1
    _ = engineTurn (v.withInputs es) := by rw [steps_one, step_engine (.inl hvi)]
    _ = .next ((v.withInputs es).complete (execResult i (s.issue i))) := by
      rw [engineTurn_busy (s := v.withInputs es) hrun.busy, State.running_withInputs, execResult_withInputs, hres]

/-- The result a command will have depends on the curve, without its markers, and on the operands at issue (R37). -/
theorem execResult_issue_congr {s s' : State} (h : s.Inv) (i : Instr) {m1 m2 : Bool}
    (hc : s'.curve = { s.curve with compressDefault := m1, compactDefault := m2 }) (hx : s.xIn = s'.xIn)
    (hy : s.yIn = s'.yIn) : execResult i (s'.issue i) = execResult i (s.issue i) :=
  calc execResult i (s'.issue i)
      = execResult i ((s.issue i).withMarkers m1 m2) := execResult_congr i hc rfl hx.symm hy.symm
    _ = execResult i (s.issue i) := execResult_withMarkers (s := s.issue i) m1 m2 i h.curve_wf h.xIn_len

/-- Settles O44: both runs complete with the result fixed at issue, and that one is the same. -/
theorem resultIsFixedAtIssue : Obligations.ResultIsFixedAtIssue := by
  rintro s s' w i as as' es es' h - ⟨m1, m2, hc⟩ hb hb' hd hx hy hi hi' ha ha'
  obtain ⟨u, hu⟩ := steps_issue_hostAccesses_engine hb hd hi ha
  obtain ⟨u', hu'⟩ := steps_issue_hostAccesses_engine hb' hd hi' ha'
  rw [execResult_issue_congr h i hc hx hy] at hu'
  exact ⟨_, _, hu, hu', rfl, rfl, rfl, rfl, rfl, rfl, rfl, rfl⟩

end Sys2Proof.Machine

/-! ## Memory: what a read returns and a write stores at every offset, reserved space, which accesses the port admits,
and the byte order (O28, O29, O30, O31, O32) -/

namespace Sys2Proof.Machine

/-! ### Reads -/

/-- A word below `NW` of a field register reads as that word (R52). -/
theorem regRead_word {s : State} (h : s.curve.WellFormed) (r : FieldReg) {j : Nat} (hj : j < nw s.curve) :
    regRead s (baseOf r + 4 * j) = wordOf s.curve (s.fieldReg r) j :=
  (regRead_field s r (hj.trans_le (nw_le h))).trans (if_pos hj)

/-- Only `STATUS`, `CAP` and the words of the field registers ever show anything (R52). -/
theorem regRead_eq_zero {s : State} {off : Nat} (ho : onPort off = true) (hs : off ≠ 0x004) (hc : off ≠ 0x008)
    (hf : ∀ r, ∀ j < nw s.curve, off ≠ baseOf r + 4 * j) : regRead s off = 0 := by
  rcases target_cases ho with ⟨ht, -⟩ | ⟨-, rfl⟩ | ⟨-, rfl⟩ | ⟨ht, -, -⟩ | ⟨r, j, hj, -, rfl⟩
  · simp only [regRead, ht]
  · exact absurd rfl hs
  · exact absurd rfl hc
  · simp only [regRead, ht]
  · rw [regRead_field s r hj, if_neg fun hlt => hf r j hlt rfl]

/-- Settles O28: the read's equation of `step`, and of `regRead` one equation for each kind of offset. -/
theorem regReadTable : Obligations.RegReadTable := by
  refine ⟨fun s off es h4 hlt hi => step_read hi ((onPort_iff off).2 ⟨h4, hlt⟩), fun s hwf =>
    ⟨rfl, rfl, rfl, fun j hj => ?_, fun off h4 hlt hs hc hf => ?_⟩⟩
  · exact ⟨regRead_word hwf .xIn hj, regRead_word hwf .yIn hj, regRead_word hwf .xOut hj, regRead_word hwf .yOut hj⟩
  · refine regRead_eq_zero ((onPort_iff off).2 ⟨h4, hlt⟩) hs hc fun r j hj => ?_
    obtain ⟨hxIn, hyIn, hxOut, hyOut⟩ := hf j hj
    cases r with
    | xIn => exact hxIn
    | yIn => exact hyIn
    | xOut => exact hxOut
    | yOut => exact hyOut

/-! ### Writes -/

/-- An offset of the port that selects word `j` of a field register is that word's (R51). -/
theorem eq_baseOf_add_of_target {off : Nat} {r : FieldReg} {j : Nat} (ho : onPort off = true)
    (ht : target off = .field r j) : off = baseOf r + 4 * j := by
  rcases target_cases ho with ⟨h, -⟩ | ⟨h, -⟩ | ⟨h, -⟩ | ⟨h, -⟩ | ⟨r', j', -, h, he⟩ <;> cases ht.symm.trans h
  exact he

/-- A write that hits no word below `NW` of an operand register stores nothing (R53). -/
theorem regStore_eq_self {s : State} {off : Nat} (ho : onPort off = true)
    (h : ∀ j < nw s.curve, off ≠ baseOf .xIn + 4 * j ∧ off ≠ baseOf .yIn + 4 * j) (w : Word) :
    regStore off w s = s := by
  rcases regStore_cases off w s with he | ⟨j, ht, hj, -⟩ | ⟨j, ht, hj, -⟩
  · exact he
  · exact absurd (eq_baseOf_add_of_target ho ht) (h j hj).1
  · exact absurd (eq_baseOf_add_of_target ho ht) (h j hj).2

/-- A write of word `j` replaces the bytes of that word that exist, and no other byte (R53). -/
theorem setWord_replaces_word {c : Curve} {B : FieldBytes} (hB : B.length = c.len) (j : Nat) (w : Word) :
    (setWord c j w B).length = c.len ∧ ∀ i < c.len,
      (setWord c j w B).getD i 0 = if i / 4 = j then w.extractLsb' (8 * (i % 4)) 8 else B.getD i 0 := by
  refine ⟨by rw [setWord_length, hB], fun i hi => ?_⟩
  simp only [setWord_getD c j w B i hB, hi, and_true, laneOf]

/-- Settles O29: the step is the command write, or the store of `regStore_xIn`, `regStore_yIn` or
`regStore_eq_self`. -/
theorem regWriteTable : Obligations.RegWriteTable := by
  intro s off w es h h4 hlt hi
  have ho : onPort off = true := (onPort_iff off).2 ⟨h4, hlt⟩
  have hnw : nw s.curve ≤ 32 := nw_le h.curve_wf
  refine ⟨?_, ?_, ?_, fun h0 hf => ?_⟩
  · rintro rfl
    exact step_command hi
  · rintro j hj rfl
    refine ⟨setWord s.curve j w s.xIn, (step_store hi ho (by omega)).trans ?_, setWord_replaces_word h.xIn_len j w⟩
    exact congrArg _ (regStore_xIn (s := s.withInputs es) hj (hj.trans_le hnw) w)
  · rintro j hj rfl
    refine ⟨setWord s.curve j w s.yIn, (step_store hi ho (by omega)).trans ?_, setWord_replaces_word h.yIn_len j w⟩
    exact congrArg _ (regStore_yIn (s := s.withInputs es) hj (hj.trans_le hnw) w)
  · exact (step_store hi ho h0).trans (congrArg _ (regStore_eq_self (s := s.withInputs es) ho hf w))

/-! ### Reserved space (R57) -/

section Reserved

variable {s : State} {off : Nat}

theorem target_reserved (h : 0x00C ≤ off) (h' : off < 0x100) : target off = .reserved := by
  unfold target
  rw [if_neg (by omega), if_neg (by omega), if_neg (by omega), if_pos h']

theorem regRead_reserved (h : target off = .reserved) : regRead s off = 0 := by simp only [regRead, h]

theorem regStore_reserved (h : target off = .reserved) (w : Word) : regStore off w s = s := by
  simp only [regStore, h]

theorem regRead_of_nw_le (r : FieldReg) {j : Nat} (hj : nw s.curve ≤ j) (h32 : j < 32) :
    regRead s (baseOf r + 4 * j) = 0 := by rw [regRead_field s r h32, if_neg hj.not_gt]

theorem regStore_of_nw_le (r : FieldReg) {j : Nat} (hj : nw s.curve ≤ j) (h32 : j < 32) (w : Word) :
    regStore (baseOf r + 4 * j) w s = s := by
  have ht := target_field r j h32
  rcases regStore_cases (baseOf r + 4 * j) w s with he | ⟨j', ht', hj', -⟩ | ⟨j', ht', hj', -⟩
  · exact he
  all_goals
    cases ht.symm.trans ht'
    exact absurd hj' hj.not_gt

theorem byteAt_of_len_le {c : Curve} {i : Nat} (hi : c.len ≤ i) (B : FieldBytes) : byteAt c B i = 0 :=
  if_neg hi.not_gt

/-- The lanes that stand for no byte are not stored. -/
theorem setWord_congr {c : Curve} {j : Nat} {w w' : Word} (h : ∀ k < 4, 4 * j + k < c.len → laneOf w k = laneOf w' k)
    (B : FieldBytes) : setWord c j w B = setWord c j w' B := by
  refine List.foldl_ext _ _ B fun B' k hk => ?_
  have hk4 : k < 4 := (by decide : ∀ l ∈ [0, 1, 2, 3], l < 4) k hk
  unfold setLane
  split
  · rw [h k hk4 ‹_›]
  · rfl

/-- A write of a field register's word depends on the lanes that stand for its bytes alone. -/
theorem regStore_field_congr (r : FieldReg) {j : Nat} (h32 : j < 32) {w w' : Word}
    (h : ∀ k < 4, 4 * j + k < s.curve.len → laneOf w k = laneOf w' k) :
    regStore (baseOf r + 4 * j) w s = regStore (baseOf r + 4 * j) w' s := by
  have ht := target_field r j h32
  cases r <;> simp only [regStore, ht, setWord_congr h]

/-- Bits 31:5 of `STATUS` are reserved (R23). -/
theorem statusWord_reserved_bits (s : State) {n : Nat} (hn : 5 ≤ n) : (statusWord s).getLsbD n = false := by
  have hlt : s.ill.toNat * 16 + s.sign.toNat * 8 + s.valid.toNat * 4 + s.done.toNat * 2 + s.busy.toNat < 2 ^ 5 := by
    have := s.ill.toNat_le; have := s.sign.toNat_le; have := s.valid.toNat_le
    have := s.done.toNat_le; have := s.busy.toNat_le
    omega
  rw [statusWord, BitVec.getLsbD_ofNat,
    Nat.testBit_eq_false_of_lt (hlt.trans_le (Nat.pow_le_pow_right two_pos hn)), Bool.and_false]

/-- Bits 7:2 and 31:16 of `CAP` are reserved: the markers fill bits 1:0, and `L <= 128` fits bits 15:8 (R31). -/
theorem capWord_reserved_bits {c : Curve} (h : c.WellFormed) {n : Nat} (h2 : 2 ≤ n) (hn : n < 8 ∨ 16 ≤ n) :
    (capWord c).getLsbD n = false := by
  have hlow : c.compactDefault.toNat * 2 + c.compressDefault.toNat < 2 ^ 2 := by
    have := c.compactDefault.toNat_le; have := c.compressDefault.toNat_le
    omega
  have hlen : c.len < 2 ^ 8 := by have := h.len_le; omega
  rw [capWord, BitVec.getLsbD_ofNat, Nat.add_assoc, show c.len * 256 = 2 ^ 8 * c.len by omega,
    Nat.testBit_two_pow_mul_add c.len (hlow.trans (by decide)) n]
  rcases hn with hn | hn
  · rw [if_pos hn, Nat.testBit_eq_false_of_lt (hlow.trans_le (Nat.pow_le_pow_right two_pos h2)), Bool.and_false]
  · rw [if_neg (by omega),
      Nat.testBit_eq_false_of_lt (hlen.trans_le (Nat.pow_le_pow_right two_pos (by omega))), Bool.and_false]

end Reserved

/-- Settles O30: the laws above for offsets, words, lanes and bits, and the two equations of `step` for an access to a
reserved offset. -/
theorem reservedSpaceReadsZeroAndIgnoresWrites : Obligations.ReservedSpaceReadsZeroAndIgnoresWrites := by
  intro s hwf
  refine ⟨fun off hlo hhi _ => ?_, fun r j hj h32 => ⟨regRead_of_nw_le r hj h32, regStore_of_nw_le r hj h32⟩,
    fun r j k hj hk hpad => ⟨?_, fun w w' hw => ?_⟩, fun n hn => statusWord_reserved_bits s hn,
    fun n h2 hn => capWord_reserved_bits hwf h2 hn, fun w => ⟨rfl, rfl⟩, fun off es hlo hhi h4 => ?_⟩
  · have ht := target_reserved hlo hhi
    exact ⟨regRead_reserved ht, regStore_reserved ht⟩
  · rw [regRead_word hwf r hj, laneOf_wordOf _ _ _ hk, byteAt_of_len_le hpad]
  · refine regStore_field_congr r (hj.trans_le (nw_le hwf)) fun k' hk' hlt => hw k' hk' ?_
    rintro rfl
    exact absurd hlt hpad.not_gt
  · have ht := target_reserved hlo hhi
    have ho : onPort off = true := (onPort_iff off).2 ⟨h4, by omega⟩
    refine ⟨fun hi => ?_, fun w hi => ?_⟩
    · rw [step_read hi ho, regRead_reserved ht]
      rfl
    · rw [step_store hi ho (by omega), regStore_reserved ht]
      rfl

/-! ### Which accesses the port admits -/

/-- A command write always answers a next state. -/
theorem commandWrite_next (w : Word) (s : State) : ∃ t, commandWrite w s = .next t := by
  cases hb : s.busy with
  | true => exact ⟨s, commandWrite_busy w hb⟩
  | false =>
    cases hd : decode w with
    | error e => exact ⟨s.illegal, commandWrite_illegal hb hd⟩
    | ok i => exact ⟨s.issue i, (commandWrite_legal hb hd).trans (exec_idle i hb)⟩

/-- Settles O31: `onPort` says which offsets, `step_refused` refuses the others, and a read, a command write and a store
each answer a next state. -/
theorem onlyPdeAccessesAreAdmitted : Obligations.OnlyPdeAccessesAreAdmitted := by
  intro s off w es hi
  refine ⟨fun hbad => ?_, fun h4 hlt => ?_⟩
  · have ho : onPort off = false := by
      rw [Bool.eq_false_iff, Ne, onPort_iff]
      omega
    rcases hi with hi | hi
    · exact step_refused hi (.inl rfl) ho
    · exact step_refused hi (.inr ⟨w, rfl⟩) ho
  · have ho : onPort off = true := (onPort_iff off).2 ⟨h4, hlt⟩
    rcases hi with hi | hi
    · exact ⟨_, step_read hi ho⟩
    · by_cases h0 : off = 0x000
      · subst h0
        rw [step_command hi]
        exact commandWrite_next w _
      · exact ⟨_, step_store hi ho h0⟩

/-! ### Byte order -/

/-- A word of a register of `L` bytes is the sum of its four bytes by lane weight (R56). -/
theorem wordOf_toNat_getD {c : Curve} {B : FieldBytes} (hB : B.length = c.len) (j : Nat) :
    (wordOf c B j).toNat = (B.getD (4 * j) 0).toNat + (B.getD (4 * j + 1) 0).toNat * 2 ^ 8 +
      (B.getD (4 * j + 2) 0).toNat * 2 ^ 16 + (B.getD (4 * j + 3) 0).toNat * 2 ^ 24 := by
  simp only [wordOf_toNat, byteAt_getD hB]

/-- Settles O32: the sums of R56 and R55; each word of the examples is the sum of its four bytes. -/
theorem lanesAndByteOrder : Obligations.LanesAndByteOrder := by
  refine ⟨fun c B j hB => wordOf_toNat_getD hB j, int_cons, rfl, fun c hc => ⟨?_, ?_⟩, fun c hc => ?_, by decide⟩
  all_goals
    refine BitVec.eq_of_toNat_eq ((wordOf_toNat_getD ?_ _).trans (by decide))
    exact hc.symm

end Sys2Proof.Machine

/-! ## Encoding: the decoder against the encoder and the opcode map, the effect of illegal words, and the sequences that
wait for a command and load an operand (O7, O4, O5, O6, O15, O33, O8) -/

namespace Sys2Proof.Machine

/-! ### The decoder and the encoder -/

/-- A command's word decodes to the command (R74, R75). -/
theorem decode_encode (i : Instr) : decode (encode i) = .ok i := by
  cases i with
  | decompress yIsOdd => cases yIsOdd <;> decide
  | decompact => decide
  | compress => decide
  | compact => decide

/-- The word of `DECOMPRESS` is `0x00000001 + 0x100*s` (R79). -/
theorem encode_decompress_toNat (yIsOdd : Bool) : (encode (.decompress yIsOdd)).toNat = 1 + 256 * yIsOdd.toNat := by
  cases yIsOdd <;> rfl

/-- No bit of a legal word is dropped: the fields that `decode` does not hand on are 0 (R70, R75). -/
theorem encode_of_decode {w : Word} {i : Instr} (h : decode w = .ok i) : encode i = w := by
  rw [decode_eq] at h
  split_ifs at h with hrsv hop hs h2 h3 h4 <;> cases h <;> refine BitVec.eq_of_toNat_eq ?_
  · rw [encode_decompress_toNat]
    by_cases hs : w.toNat / 256 % 2 = 1 <;>
      simp only [hs, decide_true, decide_false, Bool.toNat_true, Bool.toNat_false] <;> omega
  · exact (by omega : 2 = w.toNat)
  · exact (by omega : 3 = w.toNat)
  · exact (by omega : 4 = w.toNat)

/-- `decode` and `encode` are inverse. -/
theorem decode_eq_ok_iff {w : Word} {i : Instr} : decode w = .ok i ↔ encode i = w :=
  ⟨encode_of_decode, by rintro rfl; exact decode_encode i⟩

/-- Settles O7: the two directions of `decode_eq_ok_iff`. -/
theorem decodeAndEncodeAgree : Obligations.DecodeAndEncodeAgree :=
  ⟨fun i _ => decode_encode i, fun _ _ => encode_of_decode⟩

/-- Settles O4: the legal words are the words of the commands, and `Instr` has five terms. -/
theorem exactlyFiveWordsAreLegal : Obligations.ExactlyFiveWordsAreLegal := by
  intro w i
  rw [decode_eq_ok_iff]
  constructor
  · rintro rfl
    cases i with
    | decompress yIsOdd =>
      cases yIsOdd with
      | false => exact .inl ⟨rfl, rfl⟩
      | true => exact .inr (.inl ⟨rfl, rfl⟩)
    | decompact => exact .inr (.inr (.inl ⟨rfl, rfl⟩))
    | compress => exact .inr (.inr (.inr (.inl ⟨rfl, rfl⟩)))
    | compact => exact .inr (.inr (.inr (.inr ⟨rfl, rfl⟩)))
  · rintro (⟨rfl, rfl⟩ | ⟨rfl, rfl⟩ | ⟨rfl, rfl⟩ | ⟨rfl, rfl⟩ | ⟨rfl, rfl⟩) <;> rfl

/-- Settles O8: five words are those of the commands, and the reserved ones are decoded. -/
theorem wordsOfTheEncodingDecode : Obligations.WordsOfTheEncodingDecode :=
  ⟨decode_encode (.decompress false), decode_encode (.decompress true), decode_encode .decompact,
    decode_encode .compress, decode_encode .compact, by decide, by decide, by decide⟩

/-! ### The opcode map -/

/-- A command's word selects the command's row (R74). -/
theorem encode_selects_row (i : Instr) : encode i &&& i.row.mask = i.row.matchWord := by
  cases i with
  | decompress yIsOdd => exact (Laws.OpcodeRow.decompress yIsOdd).1
  | decompact => exact Laws.OpcodeRow.decompact.1
  | compress => exact Laws.OpcodeRow.compress.1
  | compact => exact Laws.OpcodeRow.compact.1

/-- The mask of `DECOMPRESS` leaves one bit open, the sign immediate (R72, R74). -/
theorem eq_encode_decompress_of_masked {w : Word} (h : w &&& 0xFFFFFEFF = 0x00000001) :
    encode (.decompress (fieldS w)) = w :=
  calc encode (.decompress (fieldS w))
      = (w &&& 0xFFFFFEFF) ||| (w &&& BitVec.twoPow 32 8) := by rw [h, BitVec.and_twoPow]; rfl
    _ = w &&& BitVec.allOnes 32 := BitVec.and_or_distrib_left.symm
    _ = w := BitVec.and_allOnes

/-- The words that select a row are the legal words whose command stands in it (R74). -/
theorem selects_row_iff {w : Word} {i : Instr} :
    w &&& i.row.mask = i.row.matchWord ↔ ∃ j, decode w = .ok j ∧ j.row = i.row := by
  constructor
  · intro h
    cases i with
    | decompress yIsOdd =>
      exact ⟨.decompress (fieldS w), decode_eq_ok_iff.2 (eq_encode_decompress_of_masked h), rfl⟩
    | decompact => exact ⟨.decompact, decode_eq_ok_iff.2 (h.symm.trans BitVec.and_allOnes), rfl⟩
    | compress => exact ⟨.compress, decode_eq_ok_iff.2 (h.symm.trans BitVec.and_allOnes), rfl⟩
    | compact => exact ⟨.compact, decode_eq_ok_iff.2 (h.symm.trans BitVec.and_allOnes), rfl⟩
  · rintro ⟨j, hd, hrow⟩
    rw [← hrow, ← encode_of_decode hd, encode_selects_row]

/-- Settles O5: each clause is a use of `selects_row_iff`; the rows are disjoint because a word decodes to one
command. -/
theorem wordsSelectRowsOfOpcodeMap : Obligations.WordsSelectRowsOfOpcodeMap := by
  refine ⟨fun w i hd => selects_row_iff.2 ⟨i, hd, rfl⟩, fun w i => selects_row_iff.1, fun w i j hi hj => ?_⟩
  obtain ⟨k, hk, hki⟩ := selects_row_iff.1 hi
  obtain ⟨l, hl, hlj⟩ := selects_row_iff.1 hj
  cases hk.symm.trans hl
  exact hki.symm.trans hlj

/-! ### Illegal words -/

/-- The conditions of R76, as arithmetic on the word's value. -/
theorem decode_illegal_iff (w : Word) : (∃ e, decode w = .error e) ↔
    (w.toNat / 2 ^ 9 ≠ 0 ∨ w.toNat / 2 ^ 4 % 2 ^ 4 ≠ 0 ∨ w.toNat % 2 ^ 4 = 0 ∨ 5 ≤ w.toNat % 2 ^ 4 ∨
      ((w.toNat % 2 ^ 4 = 2 ∨ w.toNat % 2 ^ 4 = 3 ∨ w.toNat % 2 ^ 4 = 4) ∧ w.toNat / 2 ^ 8 % 2 = 1)) := by
  rw [decode_eq]
  split_ifs <;> simp only [Except.error.injEq, exists_eq', exists_false, true_iff, false_iff] <;> omega

theorem executing_issue (i : Instr) (s : State) : (s.issue i).Executing i := ⟨rfl, State.running_issue i s⟩

/-- Settles O6: `decode_illegal_iff`, and O12 followed by the issue of the next word. -/
theorem illegalWordsAndTheirEffect : Obligations.IllegalWordsAndTheirEffect := by
  refine ⟨decode_illegal_iff, fun s w w' i es hb hi hill hd => ?_⟩
  obtain ⟨t, ht, hstatus, rfl⟩ := illegalWordClearsResults s w _ hb hi hill
  exact ⟨_, ht, hstatus, rfl, rfl, rfl, rfl, _,
    (stepRunsTheDecodedCommand _ w' i es rfl rfl hd).trans (exec_idle i rfl), executing_issue i _⟩

/-! ### Issue and wait (R79) -/

/-- `n` reads in a row have handed the word `w` to the host. -/
def State.returnedTimes (n : Nat) (w : Word) (s : State) : State :=
  { s with reads := List.replicate n w ++ s.reads }

theorem returnedTimes_succ (n : Nat) (w : Word) (s : State) :
    s.returnedTimes (n + 1) w = (s.returned w).returnedTimes n w := by
  simp only [State.returnedTimes, List.replicate_succ', List.append_assoc]
  rfl

/-- Polls of `STATUS` hand out its word and change nothing of the PDE (R52, R58). -/
theorem steps_status_reads {s : State} {es : List Event} {n : Nat}
    (hi : s.inputs = List.replicate n (.read 0x004) ++ es) :
    steps n s = .next ((s.withInputs es).returnedTimes n (statusWord s)) := by
  induction n generalizing s with
  | zero => subst hi; rfl
  | succ n ih =>
    rw [steps_succ (step_read hi rfl) n, ih rfl, returnedTimes_succ]
    rfl

/-- While a command runs `STATUS` shows `BUSY` alone (R24, R38). -/
theorem statusWord_issue (i : Instr) (s : State) : statusWord (s.issue i) = 0x00000001 := rfl

/-- `WAIT` on a running command: the polls read the `STATUS` of the busy engine, the last read the completed one. -/
theorem steps_waitAfter {s : State} {i : Instr} {n : Nat} {es : List Event} (h : s.Executing i)
    (hi : s.inputs = waitAfter n ++ es) :
    steps (n + 2) s = .next ((((s.withInputs es).returnedTimes n (statusWord s)).complete (execResult i s)).returned
      (statusWord (s.complete (execResult i s)))) := by
  obtain ⟨hb, rfl⟩ := h
  let u := (s.withInputs (.engine :: .read 0x004 :: es)).returnedTimes n (statusWord s)
  have hpolls : steps n s = .next u := steps_status_reads (hi.trans (List.append_assoc ..))
  have hturn : step u = .next ((u.withInputs (.read 0x004 :: es)).complete (execResult s.running s)) :=
    (step_engine (.inl rfl)).trans (engineTurn_busy hb)
  rw [steps_add hpolls, steps_succ hturn, steps_one]
  exact step_read (off := 0x004) rfl rfl

/-- Settles O15: the issue, and `steps_waitAfter` on the command issued. -/
theorem issueThenWaitReadsCompletedStatus : Obligations.IssueThenWaitReadsCompletedStatus := by
  intro s i n es hb hi
  have hissue : step s = .next ((s.withInputs (waitAfter n ++ es)).issue i) :=
    (stepRunsTheDecodedCommand s _ i _ hb hi (decode_encode i)).trans (exec_idle i hb)
  refine ⟨s.issue i, _, exec_idle i hb, exec_executing (executing_issue i s), rfl, ?_⟩
  rw [steps_succ hissue, steps_waitAfter (executing_issue i _) rfl, statusWord_issue,
    execResult_congr (t := (s.withInputs (waitAfter n ++ es)).issue i) (s := s.issue i) i rfl rfl rfl rfl]
  rfl

/-! ### Loading an operand (R79) -/

/-- `s` with other content in one field register. -/
def State.withFieldReg (r : FieldReg) (B : FieldBytes) (s : State) : State :=
  match r with
  | .xIn => { s with xIn := B }
  | .yIn => { s with yIn := B }
  | .xOut => { s with xOut := B }
  | .yOut => { s with yOut := B }

section LoadField

variable {s : State} {c : Curve} {bytes B : FieldBytes} (r : FieldReg)

@[simp] theorem fieldReg_withFieldReg : (s.withFieldReg r B).fieldReg r = B := by cases r <;> rfl

@[simp] theorem withFieldReg_curve : (s.withFieldReg r B).curve = s.curve := by cases r <;> rfl

@[simp] theorem withFieldReg_inputs : (s.withFieldReg r B).inputs = s.inputs := by cases r <;> rfl

theorem withFieldReg_self : s.withFieldReg r (s.fieldReg r) = s := by cases r <;> rfl

theorem withInputs_withFieldReg_twice (B' : FieldBytes) (es es' : List Event) :
    (((s.withInputs es).withFieldReg r B).withInputs es').withFieldReg r B' =
      (s.withInputs es').withFieldReg r B' := by cases r <;> rfl

/-- An operand register, which the host may write (R21). -/
def FieldReg.IsOperand (r : FieldReg) : Prop := r = .xIn ∨ r = .yIn

/-- A write of a word of an operand register stores its lanes (R53). -/
theorem regStore_word (hr : r.IsOperand) {j : Nat} (hj : j < nw s.curve) (h32 : j < 32) (w : Word) :
    regStore (baseOf r + 4 * j) w s = s.withFieldReg r (setWord s.curve j w (s.fieldReg r)) := by
  rcases hr with rfl | rfl
  · exact regStore_xIn hj h32 w
  · exact regStore_yIn hj h32 w

/-- The words of the field registers are admitted by the port, and none of them is `CMD` (R51, R54). -/
theorem onPort_word {j : Nat} (h32 : j < 32) : onPort (baseOf r + 4 * j) = true ∧ baseOf r + 4 * j ≠ 0 := by
  rw [onPort_iff]
  cases r <;> simp only [baseOf] <;> omega

/-- The step that takes a write of a word of an operand register. -/
theorem step_write_word (hr : r.IsOperand) {j : Nat} (hj : j < nw s.curve) (h32 : j < 32) {w : Word} {es : List Event}
    (hi : s.inputs = .write (baseOf r + 4 * j) w :: es) :
    step s = .next ((s.withInputs es).withFieldReg r (setWord s.curve j w (s.fieldReg r))) := by
  obtain ⟨ho, h0⟩ := onPort_word r h32
  exact (step_store hi ho h0).trans (congrArg _ (regStore_word (s := s.withInputs es) r hr hj h32 w))

/-- `B` after the words `js` of `bytes` have been written into it, in their order. -/
def storeWords (c : Curve) (bytes : FieldBytes) (js : List Nat) (B : FieldBytes) : FieldBytes :=
  js.foldl (fun B j => setWord c j (wordOf c bytes j) B) B

@[simp] theorem storeWords_length (js : List Nat) : (storeWords c bytes js B).length = B.length := by
  induction js generalizing B with
  | nil => rfl
  | cons j js ih => exact ih.trans (setWord_length ..)

/-- The words written are those of `bytes`, so each byte of theirs is that of `bytes` (R53, R56). -/
theorem storeWords_getD (hbytes : bytes.length = c.len) (hB : B.length = c.len) (js : List Nat) {i : Nat}
    (hi : i < c.len) : (storeWords c bytes js B).getD i 0 = if i / 4 ∈ js then bytes.getD i 0 else B.getD i 0 := by
  induction js generalizing B with
  | nil => rfl
  | cons j js ih =>
    have hword : (setWord c j (wordOf c bytes j) B).getD i 0 = if i / 4 = j then bytes.getD i 0 else B.getD i 0 := by
      rw [setWord_getD _ _ _ _ _ hB]
      by_cases hj : i / 4 = j
      · subst hj
        rw [if_pos ⟨rfl, hi⟩, if_pos rfl, laneOf_wordOf _ _ _ (by omega), Nat.div_add_mod, byteAt_getD hbytes]
      · rw [if_neg (fun h => hj h.1), if_neg hj]
    refine (ih (by rw [setWord_length, hB])).trans ?_
    rw [hword]
    by_cases hjs : i / 4 ∈ js <;> simp [hjs]

/-- All `NW` words of `bytes` make `bytes` (R6, R56). -/
theorem storeWords_range (hbytes : bytes.length = c.len) (hB : B.length = c.len) :
    storeWords c bytes (List.range (nw c)) B = bytes := by
  refine List.ext_getElem (by rw [storeWords_length, hB, hbytes]) fun i h _ => ?_
  have hi : i < c.len := by rwa [storeWords_length, hB] at h
  have hmem : i / 4 ∈ List.range (nw c) := by rw [List.mem_range, nw]; omega
  have hget := storeWords_getD hbytes hB (List.range (nw c)) hi
  rw [if_pos hmem] at hget
  simpa [List.getD_eq_getElem, hi, hbytes, hB] using hget

/-- The writes of some words of an operand register, whatever the engine is doing (R53). -/
theorem steps_write_words (hr : r.IsOperand) (hnw : nw s.curve ≤ 32) {js : List Nat}
    (hjs : ∀ j ∈ js, j < nw s.curve) {es : List Event}
    (hi : s.inputs = js.map (fun j => .write (baseOf r + 4 * j) (wordOf s.curve bytes j)) ++ es) :
    steps js.length s =
      .next ((s.withInputs es).withFieldReg r (storeWords s.curve bytes js (s.fieldReg r))) := by
  induction js generalizing s with
  | nil => subst hi; exact congrArg _ (withFieldReg_self r).symm
  | cons j js ih =>
    obtain ⟨hj, hjs⟩ := List.forall_mem_cons.1 hjs
    refine (steps_succ (step_write_word r hr hj (hj.trans_le hnw) hi) js.length).trans ?_
    rw [ih (by rwa [withFieldReg_curve]) (by rwa [withFieldReg_curve]) (by simp), withInputs_withFieldReg_twice]
    simp [storeWords]

/-- The accesses of a whole-register write leave exactly `bytes` in the operand register (R79). -/
theorem steps_loadField (hr : r.IsOperand) (hwf : s.curve.WellFormed) (hlen : (s.fieldReg r).length = s.curve.len)
    (hbytes : bytes.length = s.curve.len) {es : List Event} (hi : s.inputs = loadField s.curve r bytes ++ es) :
    steps (nw s.curve) s = .next ((s.withInputs es).withFieldReg r bytes) := by
  have h := steps_write_words r hr (nw_le hwf) (fun _ => List.mem_range.1) hi
  rwa [List.length_range, storeWords_range hbytes hlen] at h

end LoadField

/-- Settles O33: `steps_loadField` for each of the two operand registers. -/
theorem loadSequenceWritesTheOperand : Obligations.LoadSequenceWritesTheOperand := fun _ _ _ h hbytes =>
  ⟨steps_loadField .xIn (.inl rfl) h.curve_wf h.xIn_len hbytes,
    steps_loadField .yIn (.inr rfl) h.curve_wf h.yIn_len hbytes⟩

end Sys2Proof.Machine

/-! ## The field contract: encodings, negation, the square root, and the points over an x-coordinate (O49, O50, O51, O52,
O53, O54) -/

namespace Sys2Proof.Machine

section FieldContract

variable {c : Curve}

/-! ### Encodings -/

/-- `fe_decode` accepts exactly the values below `p` (R91). -/
theorem feDecode_ok_iff (B : FieldBytes) : (feDecode c B).2 = true ↔ int B < c.p := by
  rcases Nat.lt_or_ge (int B) c.p with hlt | hge
  · simp [feDecode_of_lt hlt, hlt]
  · simp [feDecode_of_ge hge, hge]

theorem feDecode_rejects {B : FieldBytes} (h : c.p ≤ int B) : (feDecode c B).2 = false := by
  rw [feDecode_of_ge h]

/-- An accepted string has the value that `fe_decode` answers (R91). -/
theorem int_eq_of_feDecode {B : FieldBytes} {v : Nat} (h : feDecode c B = (v, true)) : int B = v := by
  have hlt : int B < c.p := (feDecode_ok_iff B).1 (by rw [h])
  rw [feDecode_of_lt hlt] at h
  exact congrArg Prod.fst h

theorem feDecode_feEncode (h : c.WellFormed) {v : Nat} (hv : v < c.p) : feDecode c (feEncode c v) = (v, true) := by
  have hint := int_feEncode h hv
  rw [feDecode_of_lt (by rwa [hint]), hint]

/-- The encoding of `p` has the value `p`, as `p` still fits in `L` bytes (R6). -/
theorem int_feEncode_p (h : c.WellFormed) : int (feEncode c c.p) = c.p := by
  rw [feEncode, int_bytesOf, Nat.mod_eq_of_lt h.p_lt]

/-- `n` bytes `0xFF` have the greatest value of `n` bytes, `256^n - 1`. -/
theorem int_replicate_ff (n : Nat) : int (List.replicate n 0xFF) + 1 = 256 ^ n := by
  induction n with
  | zero => rfl
  | succ n ih =>
    have hff : (0xFF : Byte).toNat = 255 := rfl
    rw [List.replicate_succ, int_cons, List.length_replicate, hff, Nat.pow_succ]
    omega

/-! ### Negation and squares -/

theorem add_neg {v : Nat} (hv : v < c.p) : add c v (neg c v) = 0 := by
  by_cases h0 : v = 0
  · rw [h0, neg_of_zero, add, Nat.zero_mod]
  · rw [neg_of_ne_zero h0 hv, add, Nat.add_sub_cancel' hv.le, Nat.mod_self]

/-- Only 0 is its own negative, because `p` is odd (R102). -/
theorem neg_eq_self_iff (h : c.WellFormed) {v : Nat} (hv : v < c.p) : neg c v = v ↔ v = 0 := by
  refine ⟨fun he => ?_, fun h0 => by rw [h0, neg_of_zero]⟩
  by_contra h0
  have hodd := h.odd
  rw [neg_of_ne_zero h0 hv] at he
  omega

/-- Two field elements have the same square exactly when they are equal or negatives (R102). -/
theorem mul_self_eq_iff (h : c.WellFormed) {r t : Nat} (hr : r < c.p) (ht : t < c.p) :
    mul c t t = mul c r r ↔ t = r ∨ t = neg c r := by
  refine ⟨root_eq_or_neg h ht hr, ?_⟩
  rintro (rfl | rfl)
  · rfl
  · exact mul_neg_neg hr

theorem mul_zero_zero (c : Curve) : mul c 0 0 = 0 := Nat.zero_mod _

/-- 0 is the only root of 0 (R102). -/
theorem mul_self_eq_zero_iff (h : c.WellFormed) {t : Nat} (ht : t < c.p) : mul c t t = 0 ↔ t = 0 := by
  simpa [mul_zero_zero, neg_of_zero] using mul_self_eq_iff h h.prime.pos ht

/-! ### The square root -/

/-- The flag of `sqrt` is exact (R96 (i)). -/
theorem sqrt_ok_iff (h : c.WellFormed) (root : Nat → Bool) (fail : Nat → Nat) (v : Nat) :
    (sqrt c root fail v).2 = true ↔ Residue c v := by
  rcases sqrt_cases h root fail v with ⟨r, he, hr, hsq⟩ | ⟨r, he, -, hn⟩
  · rw [he]
    exact iff_of_true rfl ⟨r, hr, hsq⟩
  · rw [he]
    exact iff_of_false Bool.false_ne_true hn

/-- An answer with `ok = 1` is a root (R96 (ii)). -/
theorem mul_sqrt_sqrt (h : c.WellFormed) {root : Nat → Bool} {fail : Nat → Nat} {v : Nat}
    (hok : (sqrt c root fail v).2 = true) : mul c (sqrt c root fail v).1 (sqrt c root fail v).1 = v := by
  rcases sqrt_cases h root fail v with ⟨r, he, -, hsq⟩ | ⟨r, he, -, -⟩
  · rwa [he]
  · simp [he] at hok

/-- Whatever the flag, the answer is a field element (R96). -/
theorem sqrt_lt_p (h : c.WellFormed) (root : Nat → Bool) (fail : Nat → Nat) (v : Nat) :
    (sqrt c root fail v).1 < c.p := by
  rcases sqrt_cases h root fail v with ⟨r, he, hr, -⟩ | ⟨r, he, hr, -⟩ <;> rwa [he]

/-- `sqrt(0) = (0, 1)`: both roots of 0 are 0 (R96 (iv)). -/
theorem sqrt_zero (h : c.WellFormed) (root : Nat → Bool) (fail : Nat → Nat) : sqrt c root fail 0 = (0, true) := by
  obtain ⟨r, hr, hor⟩ := sqrt_of_root h root fail h.prime.pos
  rw [mul_zero_zero] at hr
  rw [hr, show r = 0 by simpa [neg_of_zero] using hor]

/-- Some backend returns the root `t` (R96 (ii)). -/
theorem exists_draw_of_root (h : c.WellFormed) (fail : Nat → Nat) {v t : Nat} (ht : t < c.p) (hsq : mul c t t = v) :
    ∃ root, sqrt c root fail v = (t, true) := by
  cases hl : leastRoot c v with
  | none => exact absurd ⟨t, ht, hsq⟩ (leastRoot_none hl)
  | some r =>
    obtain ⟨hr, hrsq⟩ := leastRoot_some hl
    rcases root_eq_or_neg h ht hr (hsq.trans hrsq.symm) with rfl | rfl
    · exact ⟨fun _ => false, by simp [sqrt, hl]⟩
    · exact ⟨fun _ => true, by simp [sqrt, hl]⟩

/-- Some backend leaves the field element `t` for a non-residue (R96 (iii)). -/
theorem exists_draw_of_not_residue (root : Nat → Bool) {v t : Nat} (ht : t < c.p) (hv : ¬ Residue c v) :
    ∃ fail, sqrt c root fail v = (t, false) := by
  cases hl : leastRoot c v with
  | none => exact ⟨fun _ => t, by simp [sqrt, hl, Nat.mod_eq_of_lt ht]⟩
  | some r => exact absurd ⟨r, leastRoot_some hl⟩ hv

/-! ### The points over an x-coordinate -/

/-- The points with the x-coordinate of one point are that point and its negative (R102). -/
theorem OnCurve.iff_eq_or_neg (h : c.WellFormed) {x y : Nat} (hy : OnCurve c x y) (z : Nat) :
    OnCurve c x z ↔ z = y ∨ z = neg c y := by
  obtain ⟨hx, hyp, hsq⟩ := hy
  constructor
  · rintro ⟨-, hzp, hzsq⟩
    exact root_eq_or_neg h hzp hyp (hzsq.trans hsq.symm)
  · rintro (rfl | rfl)
    · exact ⟨hx, hyp, hsq⟩
    · exact ⟨hx, neg_lt_p h y, (mul_neg_neg hyp).trans hsq⟩

/-- A right-hand side of 0 has the one point with `y = 0` (R102). -/
theorem onCurve_iff_of_rhs_zero (h : c.WellFormed) {x : Nat} (hx : x < c.p) (h0 : rhs c x = 0) (y : Nat) :
    OnCurve c x y ↔ y = 0 := by
  have hzero : OnCurve c x 0 := ⟨hx, h.prime.pos, by rw [mul_zero_zero, h0]⟩
  simpa [neg_of_zero] using hzero.iff_eq_or_neg h y

/-- A point whose right-hand side is not 0 has `y` not 0 either. -/
theorem OnCurve.ne_zero {x y : Nat} (hy : OnCurve c x y) (h0 : rhs c x ≠ 0) : y ≠ 0 := by
  rintro rfl
  exact h0 (by rw [← hy.2.2, mul_zero_zero])

end FieldContract

/-- Settles O49: `int` and `fe_encode` are inverse on `L`-byte strings and values below `p`. -/
theorem canonicalEncodingIsUnique : Obligations.CanonicalEncodingIsUnique := by
  intro c v h hv
  refine ⟨feEncode_length c v, int_feEncode h hv, ?_, feDecode_feEncode h hv, ?_⟩
  · rintro B hB rfl
    exact (feEncode_int hB).symm
  · intro B hB hd
    rw [← int_eq_of_feDecode hd, feEncode_int hB]

/-- Settles O50: `feDecode_ok_iff`, at `p` itself and at the greatest value of `L` bytes, which is at least `p`. -/
theorem decodeRejectsNonCanonicalBytes : Obligations.DecodeRejectsNonCanonicalBytes := by
  intro c h
  refine ⟨fun B => ⟨feDecode_ok_iff B, fun hlt => by rw [feDecode_of_lt hlt]⟩, ?_, ?_⟩
  · exact feDecode_rejects (int_feEncode_p h).ge
  · have hp := h.p_lt
    rw [← int_replicate_ff c.len] at hp
    exact feDecode_rejects (Nat.le_of_lt_succ hp)

/-- Settles O51: the clauses of R96, one lemma each. -/
theorem sqrtMeetsItsContract : Obligations.SqrtMeetsItsContract := fun _ root fail v h _ =>
  ⟨sqrt_ok_iff h root fail v, mul_sqrt_sqrt h, sqrt_lt_p h root fail v, sqrt_zero h root fail,
    fun _ ht hsq => exists_draw_of_root h fail ht hsq, fun _ ht hv => exists_draw_of_not_residue root ht hv⟩

/-- Settles O52: for a non-zero right-hand side the pair is the point in the lower half and its negative. -/
theorem curveHasAtMostTwoPointsPerX : Obligations.CurveHasAtMostTwoPointsPerX := by
  intro c x h hx
  refine ⟨fun r t hr ht => ⟨mul_self_eq_iff h hr ht, neg_eq_self_iff h hr, (mul_self_eq_zero_iff h hr).symm⟩,
    fun hn y hy => hn hy.decodable.2, onCurve_iff_of_rhs_zero h hx, fun hres h0 => ?_⟩
  obtain ⟨y, hy, hlow⟩ := exists_point_low h hx hres
  have hyp : y < c.p := hy.2.1
  have hy0 : y ≠ 0 := hy.ne_zero h0
  have hneg : neg c y = c.p - y := neg_of_ne_zero hy0 hyp
  have hpar : parity y ≠ parity (c.p - y) := by simp [← hneg, parity_neg h hy0 hyp]
  have hodd := h.odd
  exact ⟨y, Nat.pos_of_ne_zero hy0, hyp, fun z => hneg ▸ hy.iff_eq_or_neg h z, by omega, hpar, hlow, by omega⟩

/-- Settles O53: `parity_neg`, as `p` is odd. -/
theorem negationFlipsParity : Obligations.NegationFlipsParity := by
  intro c h
  refine ⟨fun v h1 hv => ?_, neg_of_zero c, rfl, by rw [neg_of_zero]; rfl⟩
  rw [parity_neg h (Nat.one_le_iff_ne_zero.1 h1) hv]
  cases parity v <;> rfl

/-- Settles O54: the laws of R95, one lemma each. -/
theorem negationLaws : Obligations.NegationLaws :=
  ⟨fun c _ => ⟨neg_of_zero c, fun _ h1 hv => neg_of_ne_zero (Nat.one_le_iff_ne_zero.1 h1) hv,
    fun _ hv => ⟨add_neg hv, neg_neg_of_lt hv⟩⟩, rfl⟩

end Sys2Proof.Machine

/-! ## Decompression: what a valid result is, for `DECOMPRESS` first, and that it lies on the curve for all commands
(O38, O16, O21, O23, O24) -/

namespace Sys2Proof.Machine

/-! ### What each `Exec` function returns when its result is valid -/

section ValidResults

variable {c : Curve} {root : Nat → Bool} {fail : Nat → Nat} {xb yb : FieldBytes}

/-- A valid `DECOMPRESS` is the point with the root of the parity asked for, or with the root 0 (R111, R112). -/
theorem decompressResult_of_valid (h : c.WellFormed) (hlen : xb.length = c.len) {s : Bool}
    (hv : (decompressResult c root fail xb s).valid = true) :
    ∃ y, OnCurve c (int xb) y ∧ (parity y = s ∨ y = 0) ∧
      decompressResult c root fail xb s = { valid := true, xo := xb, yo := feEncode c y, sign := false } :=
  (decompressResult_cases h root fail hlen s).resolve_left fun ⟨_, he⟩ => by rw [he] at hv; cases hv

/-- A valid `DECOMPACT` is the point with the root in the lower half (R122). -/
theorem decompactResult_of_valid (h : c.WellFormed) (hlen : xb.length = c.len)
    (hv : (decompactResult c root fail xb).valid = true) :
    ∃ y, OnCurve c (int xb) y ∧ y ≤ (c.p - 1) / 2 ∧
      decompactResult c root fail xb = { valid := true, xo := xb, yo := feEncode c y, sign := false } :=
  (decompactResult_cases h root fail hlen).resolve_left fun ⟨_, he⟩ => by rw [he] at hv; cases hv

/-- `COMPRESS` is valid for points of the curve only (R130). -/
theorem onCurve_of_compressResult_valid (h : c.WellFormed) (hv : (compressResult c xb yb).valid = true) :
    OnCurve c (int xb) (int yb) := by
  by_contra hp
  rw [compressResult_fail h hp] at hv
  cases hv

/-- `COMPACT` is valid for points of the curve with the smaller root only (R130, R132). -/
theorem onCurve_of_compactResult_valid (h : c.WellFormed) (hv : (compactResult c xb yb).valid = true) :
    OnCurve c (int xb) (int yb) ∧ int yb ≤ (c.p - 1) / 2 := by
  by_contra hp
  rw [compactResult_fail h ((not_and_or.1 hp).imp_right Nat.lt_of_not_le)] at hv
  cases hv

/-- `DECOMPRESS` is valid exactly for the canonical x-coordinates with a point (R110). -/
theorem decompressResult_valid_iff (h : c.WellFormed) (hlen : xb.length = c.len) (s : Bool) :
    (decompressResult c root fail xb s).valid = true ↔ int xb < c.p ∧ Residue c (rhs c (int xb)) := by
  rcases decompressResult_cases h root fail hlen s with ⟨hn, he⟩ | ⟨y, hy, -, he⟩
  · rw [he]
    exact iff_of_false Bool.false_ne_true hn
  · rw [he]
    exact iff_of_true rfl hy.decodable

end ValidResults

/-! ### The running command -/

theorem parity_eq_iff (y : Nat) (b : Bool) : parity y = b ↔ y % 2 = b.toNat := by
  cases b <;> simp [parity]

section Running

variable {s t : State}

/-- Whatever the command, a valid result holds the latched x, and that is the x-coordinate of a point (R114, R130). -/
theorem execResult_of_valid (h : s.curve.WellFormed) (hlen : s.latX.length = s.curve.len) {i : Instr}
    (hv : (execResult i s).valid = true) :
    (execResult i s).xo = s.latX ∧ ∃ y, OnCurve s.curve (int s.latX) y := by
  cases i with
  | decompress b =>
    obtain ⟨y, hy, -, he⟩ := decompressResult_of_valid h hlen hv
    exact ⟨congrArg Result.xo he, y, hy⟩
  | decompact =>
    obtain ⟨y, hy, -, he⟩ := decompactResult_of_valid h hlen hv
    exact ⟨congrArg Result.xo he, y, hy⟩
  | compress =>
    have hp := onCurve_of_compressResult_valid h hv
    exact ⟨congrArg Result.xo (compressResult_of_point hlen hp), _, hp⟩
  | compact =>
    obtain ⟨hp, hlow⟩ := onCurve_of_compactResult_valid h hv
    exact ⟨congrArg Result.xo (compactResult_of_point h hlen hp hlow), _, hp⟩

theorem State.Executing.latS_eq {b : Bool} (h : s.Executing (.decompress b)) : s.latS = b := by
  have hrun := h.2
  unfold State.running at hrun
  split at hrun
  · exact Instr.decompress.inj hrun
  all_goals cases hrun

/-- The completion of the running `DECOMPRESS` on an x-coordinate of the curve (R41, R111, R112). -/
theorem exec_decompress_of_point (h : s.curve.WellFormed) {b : Bool} (hex : s.Executing (.decompress b))
    (hlen : s.latX.length = s.curve.len) {y : Nat} (hy : OnCurve s.curve (int s.latX) y)
    (hs : parity y = b ∨ y = 0) :
    exec (.decompress b) s =
      .next (s.complete { valid := true, xo := s.latX, yo := feEncode s.curve y, sign := false }) := by
  rw [← hex.latS_eq] at hs
  rw [exec_executing hex, execResult, decompressResult_of_point h _ _ hlen hy hs]

/-! ### The invariant of the results: one lemma for each thing a step can do -/

theorem State.ResultOnCurve.of_not_valid (h : s.valid = false) : s.ResultOnCurve :=
  fun hv => absurd (h.symm.trans hv) Bool.false_ne_true

theorem State.ResultOnCurve.regStore (h : s.ResultOnCurve) (off : Nat) (w : Word) :
    (regStore off w s).ResultOnCurve := by
  rw [regStore_frame]
  exact h

/-- Completion is where a valid result comes from (R41). -/
theorem State.Inv.resultOnCurve_complete (h : s.Inv) (i : Instr) :
    (s.complete (execResult i s)).ResultOnCurve := by
  intro hv
  obtain ⟨hxo, y, hy⟩ := execResult_of_valid h.curve_wf h.latX_len hv
  rw [State.complete_xOut, State.complete_curve, hxo]
  exact ⟨⟨y, hy⟩, feEncode_int h.latX_len⟩

theorem State.ResultOnCurve.step (h : s.ResultOnCurve) (hinv : s.Inv) (hs : step s = .next t) : t.ResultOnCurve := by
  obtain ⟨es, -, hcase⟩ := step_cases hs
  have hu : (s.withInputs es).ResultOnCurve := h
  rcases hcase with rfl | ⟨w, rfl⟩ | ⟨off, w, rfl⟩ | ⟨-, rfl⟩ | ⟨-, i, rfl⟩ | ⟨-, rfl⟩ | rfl
  · exact hu
  · exact hu
  · exact hu.regStore off w
  · exact .of_not_valid rfl
  · exact .of_not_valid rfl
  · exact (hinv.withInputs es).resultOnCurve_complete s.running
  · exact .of_not_valid rfl

end Running

/-- Settles O38: a completion writes a result of `execResult`, valid for x-coordinates of points only; an issue, an
illegal word and reset clear `VALID`; every other step leaves the result alone. -/
theorem everyStepKeepsValidResultsOnTheCurve : Obligations.EveryStepKeepsValidResultsOnTheCurve :=
  fun _ _ hinv h hs => h.step hinv hs

/-- Settles O16: `exec_decompress_of_point`, with the parity as a remainder. -/
theorem decompressReturnsRootOfAskedParity : Obligations.DecompressReturnsRootOfAskedParity :=
  fun _ b y h hex hlen hy hs => exec_decompress_of_point h hex hlen hy (hs.imp_left (parity_eq_iff y b).2)

/-- Settles O21: the result is fixed by the point with the parity asked for, or by the point with `y = 0`. -/
theorem decompressDoesNotDependOnBackendRoot : Obligations.DecompressDoesNotDependOnBackendRoot := by
  intro c xb s root root' fail fail' h hlen
  refine ⟨decompressResult_draws_irrelevant h hlen s root root' fail fail', decompressResult_valid_iff h hlen s,
    fun y hy _ hs => ?_, fun hx h0 => ?_⟩
  · rw [decompressResult_of_point h root fail hlen hy (.inl hs)]
  · have hzero : OnCurve c (int xb) 0 := (onCurve_iff_of_rhs_zero h hx h0 0).2 rfl
    rw [decompressResult_of_point h root fail hlen hzero (.inr rfl)]

/-- Settles O23: the point with `y = 0` answers to either sign bit. -/
theorem decompressOfOrderTwoPointIgnoresSign : Obligations.DecompressOfOrderTwoPointIgnoresSign := by
  intro s b h hex hlen hx h0
  have hzero : OnCurve s.curve (int s.latX) 0 := (onCurve_iff_of_rhs_zero h hx h0 0).2 rfl
  refine ⟨_, exec_decompress_of_point h hex hlen hzero (.inr rfl), rfl, rfl, feEncode_zero s.curve, ?_⟩
  rw [State.complete_yOut, feEncode_zero, int_zeros]

/-- Settles O24: the valid results of the two decode commands, read back through `int_feEncode`. -/
theorem decodedPointsLieOnTheCurve : Obligations.DecodedPointsLieOnTheCurve := by
  intro s i h hex hlen hi
  refine ⟨_, exec_executing hex, fun hv => ?_⟩
  rw [State.complete_valid] at hv
  rw [State.complete_xOut, State.complete_yOut]
  rcases hi with ⟨b, rfl⟩ | rfl
  · obtain ⟨y, hy, -, he⟩ := decompressResult_of_valid h hlen hv
    rw [execResult, he, int_feEncode h hy.2.1]
    exact ⟨hy, rfl, fun hi => nomatch hi⟩
  · obtain ⟨y, hy, hlow, he⟩ := decompactResult_of_valid h hlen hv
    rw [execResult, he, int_feEncode h hy.2.1]
    exact ⟨hy, rfl, fun _ => hlow⟩

end Sys2Proof.Machine

/-! ## Decompaction: the running `DECOMPACT`, its independence of the backend, and the `DECOMPRESS` results it stands
beside (O17, O22, O25) -/

namespace Sys2Proof.Machine

section Decompact

variable {c : Curve} {root : Nat → Bool} {fail : Nat → Nat} {xb : FieldBytes}

/-- `DECOMPACT` is valid exactly for the canonical x-coordinates with a point (R120). -/
theorem decompactResult_valid_iff (h : c.WellFormed) (hlen : xb.length = c.len) :
    (decompactResult c root fail xb).valid = true ↔ int xb < c.p ∧ Residue c (rhs c (int xb)) := by
  constructor
  · intro hv
    obtain ⟨y, hy, -, -⟩ := decompactResult_of_valid h hlen hv
    exact hy.decodable
  · rintro ⟨hx, hres⟩
    obtain ⟨y, hy, hlow⟩ := exists_point_low h hx hres
    rw [decompactResult_of_point h root fail hlen hy hlow]

/-- The completion of the running `DECOMPACT` on an x-coordinate of the curve (R41, R121). -/
theorem exec_decompact_of_point {s : State} (h : s.curve.WellFormed) (hex : s.Executing .decompact)
    (hlen : s.latX.length = s.curve.len) {y : Nat} (hy : OnCurve s.curve (int s.latX) y)
    (hlow : y ≤ (s.curve.p - 1) / 2) :
    exec .decompact s =
      .next (s.complete { valid := true, xo := s.latX, yo := feEncode s.curve y, sign := false }) := by
  rw [exec_executing hex, execResult, decompactResult_of_point h _ _ hlen hy hlow]

/-- The negative of a field element has the other parity, unless both are 0 (R101). -/
theorem parity_neg_or_eq_zero (h : c.WellFormed) {v : Nat} (hv : v < c.p) :
    parity (neg c v) = (!parity v) ∨ neg c v = 0 := by
  by_cases h0 : v = 0
  · exact .inr (by rw [h0, neg_of_zero])
  · exact .inl (parity_neg h h0 hv)

/-- Asked for the other parity than that of a point, `DECOMPRESS` returns the point's negative (R102, R111, R112). -/
theorem decompressResult_not_parity (h : c.WellFormed) (hlen : xb.length = c.len) {y : Nat}
    (hy : OnCurve c (int xb) y) :
    decompressResult c root fail xb (!parity y) =
      { valid := true, xo := xb, yo := feEncode c (neg c y), sign := false } := by
  have hneg : OnCurve c (int xb) (neg c y) := (hy.iff_eq_or_neg h _).2 (.inr rfl)
  exact decompressResult_of_point h root fail hlen hneg (parity_neg_or_eq_zero h hy.2.1)

end Decompact

/-- Settles O17: `exec_decompact_of_point`, with `State.complete` written out as the fields it sets. -/
theorem decompactReturnsSmallerRoot : Obligations.DecompactReturnsSmallerRoot :=
  fun _ _ h hex hlen hy hlow => exec_decompact_of_point h hex hlen hy hlow

/-- Settles O22: the result is the failure, or is fixed by the one point in the lower half. -/
theorem decompactDoesNotDependOnBackendRoot : Obligations.DecompactDoesNotDependOnBackendRoot := by
  intro c xb root root' fail fail' h hlen
  refine ⟨decompactResult_draws_irrelevant h hlen root root' fail fail', decompactResult_valid_iff h hlen,
    fun y hy hlow => ?_⟩
  rw [decompactResult_of_point h root fail hlen hy hlow]

/-- Settles O25: the point in the lower half answers `DECOMPRESS` for its own parity, its negative for the other. -/
theorem decompactIsOneOfTheDecompressResults : Obligations.DecompactIsOneOfTheDecompressResults := by
  intro c xb root fail h hlen hv
  obtain ⟨y, hy, hlow, hcompact⟩ := decompactResult_of_valid h hlen hv
  have hsame := decompressResult_of_point h root fail hlen hy (.inl rfl)
  have hother := decompressResult_not_parity (root := root) (fail := fail) h hlen hy
  rw [hcompact]
  exact ⟨y, hy, hlow, hsame.symm, rfl, congrArg Result.valid hother, congrArg Result.xo hother,
    congrArg Result.yo hother⟩

end Sys2Proof.Machine

/-! ## Compression and compaction: the running `COMPRESS` and `COMPACT`, and the round trips of both formats
(O18, O19, O46, O47, O48) -/

namespace Sys2Proof.Machine

section Encode

variable {s : State}

/-- The completion of the running `COMPRESS` on a point of the curve (R41, R131). -/
theorem exec_compress_of_point (hex : s.Executing .compress) (hlen : s.latX.length = s.curve.len)
    (hp : OnCurve s.curve (int s.latX) (int s.latY)) :
    exec .compress s =
      .next (s.complete { valid := true, xo := s.latX, yo := zeros s.curve, sign := parity (int s.latY) }) := by
  rw [exec_executing hex, execResult, compressResult_of_point hlen hp]

/-- The completion of the running `COMPACT` on a point of the curve with the smaller root (R41, R132). -/
theorem exec_compact_of_point (h : s.curve.WellFormed) (hex : s.Executing .compact)
    (hlen : s.latX.length = s.curve.len) (hp : OnCurve s.curve (int s.latX) (int s.latY))
    (hlow : int s.latY ≤ (s.curve.p - 1) / 2) :
    exec .compact s =
      .next (s.complete { valid := true, xo := s.latX, yo := zeros s.curve, sign := false }) := by
  rw [exec_executing hex, execResult, compactResult_of_point h hlen hp hlow]

end Encode

/-- The parity bit, as the statements write it out (R97). -/
theorem parity_eq_decide (y : Nat) : parity y = decide (y % 2 = 1) := rfl

/-- Settles O18: `exec_compress_of_point`, with the parity as a remainder. -/
theorem compressReturnsXAndParity : Obligations.CompressReturnsXAndParity := by
  intro s _ hex hlen hp
  rw [exec_compress_of_point hex hlen hp, parity_eq_decide]
  rfl

/-- Settles O19: `exec_compact_of_point`, with `State.complete` written out as the fields it sets. -/
theorem compactReturnsX : Obligations.CompactReturnsX :=
  fun _ h hex hlen hp hlow => exec_compact_of_point h hex hlen hp hlow

/-- Operands that encode a point have `L` bytes and the point's coordinates as their values (R92). -/
theorem OnCurve.operands_of_feEncode {c : Curve} (h : c.WellFormed) {x y : Nat} (hp : OnCurve c x y)
    {xb yb : FieldBytes} (hx : xb = feEncode c x) (hy : yb = feEncode c y) :
    xb.length = c.len ∧ int xb = x ∧ int yb = y :=
  ⟨by rw [hx, feEncode_length], by rw [hx, int_feEncode h hp.1], by rw [hy, int_feEncode h hp.2.1]⟩

/-- Settles O46: `COMPRESS` answers with the parity of `y`, and `DECOMPRESS` asked for that parity with `y`. Each
command is issued by `exec_idle` and completed by its law for a point, whose operands the issue has latched. -/
theorem decompressInvertsCompress : Obligations.DecompressInvertsCompress := by
  intro s x y h hb hp hx hy
  obtain ⟨hlen, rfl, rfl⟩ := hp.operands_of_feEncode h hx hy
  have hcompress := exec_compress_of_point (executing_issue .compress s) hlen hp
  refine ⟨_, _, _, _, exec_idle _ hb, hcompress, rfl, hx, rfl, parity_eq_decide _, exec_idle _ rfl,
    exec_decompress_of_point ?_ (executing_issue _ _) ?_ ?_ (.inl rfl), rfl, hx, rfl⟩
  exacts [h, hlen, hp]

/-- Settles O47: as for O46, with the smaller root in the place of the root of the parity asked for. -/
theorem decompactInvertsCompact : Obligations.DecompactInvertsCompact := by
  intro s x y h hb hp hlow hx hy
  obtain ⟨hlen, rfl, rfl⟩ := hp.operands_of_feEncode h hx hy
  have hcompact := exec_compact_of_point (s := s.issue .compact) h (executing_issue _ s) hlen hp hlow
  refine ⟨_, _, _, _, exec_idle _ hb, hcompact, rfl, hx, rfl, exec_idle _ rfl,
    exec_decompact_of_point ?_ (executing_issue _ _) ?_ ?_ hlow, rfl, hx, rfl⟩
  exacts [h, hlen, hp]

/-- Settles O48: a valid decode result is a point of the curve, which the encode command of its format accepts; the
root 0, whose parity need not be the sign asked for, has the right-hand side 0. -/
theorem encodeAcceptsEveryDecodedPoint : Obligations.EncodeAcceptsEveryDecodedPoint := by
  constructor
  · intro c xb root fail b h hlen hv
    obtain ⟨y, hp, hs, he⟩ := decompressResult_of_valid h hlen hv
    have hy : int (feEncode c y) = y := int_feEncode h hp.2.1
    rw [he]
    refine ⟨compressResult_of_point hlen (by rwa [hy]), fun h0 => ?_⟩
    exact (congrArg parity hy).trans (hs.resolve_right (hp.ne_zero h0))
  · intro c xb root fail h hlen hv
    obtain ⟨y, hp, hlow, he⟩ := decompactResult_of_valid h hlen hv
    have hy : int (feEncode c y) = y := int_feEncode h hp.2.1
    rw [he]
    exact compactResult_of_point h hlen (by rwa [hy]) (by rwa [hy])

end Sys2Proof.Machine

/-! ## Exceptions: the causes and the one shape of failure, the four outcomes of a command write, and progress
(O20, O26, O40) -/

namespace Sys2Proof.Machine

section Outcomes

variable {c : Curve} {s : State} {i : Instr} {r : Result}

/-! ### When a command fails, and what failure leaves -/

/-- The three grounds of the point check (R130). -/
theorem not_onCurve_iff {x y : Nat} : ¬ OnCurve c x y ↔ c.p ≤ x ∨ c.p ≤ y ∨ mul c y y ≠ rhs c x := by
  rw [OnCurve, not_and_or, not_and_or, Nat.not_lt, Nat.not_lt]

/-- `COMPRESS` is valid exactly for the points of the curve (R130). -/
theorem compressResult_valid_iff (h : c.WellFormed) {xb yb : FieldBytes} (hlen : xb.length = c.len) :
    (compressResult c xb yb).valid = true ↔ OnCurve c (int xb) (int yb) :=
  ⟨onCurve_of_compressResult_valid h, fun hp => congrArg Result.valid (compressResult_of_point hlen hp)⟩

/-- `COMPACT` is valid exactly for the points of the curve with the smaller root (R130, R132). -/
theorem compactResult_valid_iff (h : c.WellFormed) {xb yb : FieldBytes} (hlen : xb.length = c.len) :
    (compactResult c xb yb).valid = true ↔ OnCurve c (int xb) (int yb) ∧ int yb ≤ (c.p - 1) / 2 :=
  ⟨onCurve_of_compactResult_valid h,
    fun ⟨hp, hlow⟩ => congrArg Result.valid (compactResult_of_point h hlen hp hlow)⟩

/-- A result that is not valid is the failure (R151). -/
theorem Result.Shape.eq_failResult (h : r.Shape c) (hv : r.valid = false) : r = failResult c := by
  obtain ⟨hxo, hyo, hsign⟩ := h.invalid_empty hv
  cases r
  subst hv hxo hyo hsign
  rfl

theorem execResult_eq_failResult (hv : (execResult i s).valid = false) : execResult i s = failResult s.curve :=
  (execResult_shape i s).eq_failResult hv

/-! ### `STATUS` after each outcome -/

/-- `SIGN` of a valid result: the parity that `COMPRESS` returns, and 0 for the other commands (R27). -/
theorem execResult_sign_of_valid (h : s.curve.WellFormed) (hlen : s.latX.length = s.curve.len)
    (hv : (execResult i s).valid = true) :
    (execResult i s).sign = decide (i = .compress ∧ int s.latY % 2 = 1) := by
  cases i with
  | decompress b =>
    obtain ⟨y, -, -, he⟩ := decompressResult_of_valid h hlen hv
    exact congrArg Result.sign he
  | decompact =>
    obtain ⟨y, -, -, he⟩ := decompactResult_of_valid h hlen hv
    exact congrArg Result.sign he
  | compress =>
    have hp := onCurve_of_compressResult_valid h hv
    rw [execResult, compressResult_of_point hlen hp]
    simp [parity_eq_decide]
  | compact =>
    obtain ⟨hp, hlow⟩ := onCurve_of_compactResult_valid h hv
    exact congrArg Result.sign (compactResult_of_point h hlen hp hlow)

theorem statusWord_illegal (s : State) : statusWord s.illegal = 0x00000012 := rfl

theorem statusWord_complete_of_valid (hi : s.ill = false) (hv : r.valid = true) :
    statusWord (s.complete r) = if r.sign then 0x0000000E else 0x00000006 := by
  cases hg : r.sign <;> simp [statusWord, hi, hv, hg]

theorem statusWord_complete_failResult (hi : s.ill = false) :
    statusWord (s.complete (failResult c)) = 0x00000002 := by
  simp [statusWord, hi, failResult]

/-! ### A command word and the engine's turn after it -/

variable {w : Word} {es : List Event}

/-- An illegal word leaves the engine nothing to do in its turn (R33, R39). -/
theorem steps_illegal_engine {e : DecodeError} (hb : s.busy = false)
    (hi : s.inputs = .write 0x000 w :: .engine :: es) (hd : decode w = .error e) :
    steps 2 s = .next (s.withInputs es).illegal := by
  have hstep : step s = .next (s.withInputs (.engine :: es)).illegal :=
    (step_command hi).trans (commandWrite_illegal (s := s.withInputs _) hb hd)
  rw [steps_succ hstep, steps_one, step_engine (.inl rfl)]
  exact engineTurn_idle rfl

/-- A legal word is issued, and the engine completes it in its turn (R38, R41). -/
theorem steps_legal_engine (hb : s.busy = false) (hi : s.inputs = .write 0x000 w :: .engine :: es)
    (hd : decode w = .ok i) :
    steps 2 s = .next (((s.withInputs es).issue i).complete (execResult i (s.issue i))) := by
  have hstep : step s = .next ((s.withInputs (.engine :: es)).issue i) :=
    (stepRunsTheDecodedCommand s w i _ hb hi hd).trans (exec_idle (s := s.withInputs _) i hb)
  rw [steps_succ hstep, steps_one, step_engine (.inl rfl), engineTurn_busy rfl, State.running_withInputs,
    State.running_issue, execResult_withInputs, execResult_congr i (s := s.issue i) rfl rfl rfl rfl]
  rfl

/-! ### Progress (R154) -/

theorem engineTurn_next (s : State) : ∃ t, engineTurn s = .next t := by
  cases hb : s.busy with
  | false => exact ⟨s, engineTurn_idle hb⟩
  | true => exact ⟨_, engineTurn_busy hb⟩

/-- A move that the port admits has an effect. -/
theorem step_next_of_admitted {e : Event} (hi : s.inputs = e :: es) (he : e.admitted = true) :
    ∃ t, step s = .next t := by
  cases e with
  | read off => exact ⟨_, step_read hi he⟩
  | write off w =>
    obtain ⟨h4, hlt⟩ := (onPort_iff off).1 he
    exact (onlyPdeAccessesAreAdmitted s off w es (.inr hi)).2 h4 hlt
  | engine =>
    rw [step_engine (.inl hi)]
    exact engineTurn_next _
  | reset => exact ⟨_, step_reset hi⟩

end Outcomes

/-- Settles O20: each command fails exactly outside the operands its `_valid_iff` lemma names, and every result that
is not valid is `failResult`. -/
theorem failureHasOneShape : Obligations.FailureHasOneShape := by
  intro s i h hex hlen
  refine ⟨_, exec_executing hex, ?_, fun hv => ?_⟩
  · rw [State.complete_valid, ← Bool.not_eq_true]
    cases i with
    | decompress b => rw [execResult, decompressResult_valid_iff h hlen, not_and_or, Nat.not_lt]
    | decompact => rw [execResult, decompactResult_valid_iff h hlen, not_and_or, Nat.not_lt]
    | compress => rw [execResult, compressResult_valid_iff h hlen, not_onCurve_iff]
    | compact =>
      rw [execResult, compactResult_valid_iff h hlen, not_and_or, not_onCurve_iff, Nat.not_le, or_assoc, or_assoc]
  · rw [execResult_eq_failResult hv]
    rfl

/-- Settles O26: a busy engine drops the word; an idle one takes it to `State.illegal`, or issues the command and
completes it with its result, which is valid or `failResult`. -/
theorem commandWriteHasFourOutcomes : Obligations.CommandWriteHasFourOutcomes := by
  intro s w es h hi
  refine ⟨fun hb => ⟨_, busyEngineDropsCommandWord s w _ hb hi, fun _ => rfl, rfl, rfl⟩, fun hb => ?_⟩
  cases hd : decode w with
  | error e =>
    exact ⟨_, steps_illegal_engine hb hi hd, rfl, fun _ _ => ⟨statusWord_illegal _, rfl, rfl, rfl⟩, nofun,
      nofun⟩
  | ok i =>
    refine ⟨_, steps_legal_engine hb hi hd, rfl, nofun, ?_, ?_⟩
    · rintro j ⟨⟩ hv
      rw [State.complete_valid] at hv
      obtain ⟨hxo, -⟩ := execResult_of_valid (s := s.issue i) h.curve_wf h.xIn_len hv
      have hsign := execResult_sign_of_valid (s := s.issue i) h.curve_wf h.xIn_len hv
      refine ⟨hxo, ?_⟩
      rw [regRead_status, statusWord_complete_of_valid rfl hv, hsign]
      exact if_congr decide_eq_true_iff rfl rfl
    · rintro j ⟨⟩ hv
      rw [State.complete_valid] at hv
      rw [execResult_eq_failResult hv]
      exact ⟨statusWord_complete_failResult rfl, rfl, rfl, rfl⟩

/-- Settles O40: `Fault` is empty; `step_next_of_admitted` serves the next move, or the engine takes its turn; and a
busy engine's turn is the completion. -/
theorem noFaultAndNoStuckState : Obligations.NoFaultAndNoStuckState := by
  refine ⟨nofun, fun s hadm => ?_, fun s es hb hi => ?_⟩
  · cases hi : s.inputs with
    | nil =>
      rw [step_nil hi]
      exact engineTurn_next s
    | cons e es => exact step_next_of_admitted hi (hadm e es hi)
  · exact ⟨_, (step_engine (.inl hi)).trans (engineTurn_busy (s := s.withInputs es) hb), rfl, rfl⟩

end Sys2Proof.Machine

/-! ## Reset and hazards: a command in progress completes, reset abandons it, and the first command after reset
(O41, O2, O3) -/

namespace Sys2Proof.Machine

/-! ### Completion of a running command (R41, R180) -/

section Completion

variable {s : State}

/-- The turn of a busy engine, its own or the one it takes when no move is waiting, completes the command. -/
theorem step_completes {es : List Event} (hb : s.busy = true)
    (hi : s.inputs = .engine :: es ∨ s.inputs = [] ∧ es = []) :
    ∃ t, step s = .next t ∧ t.busy = false ∧ t.done = true :=
  ⟨_, (step_engine hi).trans (engineTurn_busy (s := s.withInputs es) hb), rfl, rfl⟩

/-- The moves that the port admits are the engine's turn, reset, and the host accesses (R10, R54). -/
theorem Event.admitted_cases {e : Event} (h : e.admitted = true) :
    e = .engine ∨ e = .reset ∨ e.hostAccess = true := by
  cases e with
  | read off => exact .inr (.inr h)
  | write off w => exact .inr (.inr h)
  | engine => exact .inl rfl
  | reset => exact .inr (.inl rfl)

/-- The command runs through the host accesses and completes at the first engine's turn, which comes at the latest
after the last waiting move. -/
theorem steps_complete_of_admitted {es : List Event} (hb : s.busy = true) (hi : s.inputs = es)
    (h : ∀ e ∈ es, e.admitted = true ∧ e ≠ .reset) :
    ∃ n t, n ≤ es.length + 1 ∧ steps n s = .next t ∧ t.busy = false ∧ t.done = true := by
  induction es generalizing s with
  | nil =>
    obtain ⟨t, ht, hdone⟩ := step_completes hb (.inr ⟨hi, rfl⟩)
    exact ⟨1, t, Nat.le_refl 1, (steps_one s).trans ht, hdone⟩
  | cons e es ih =>
    obtain ⟨⟨hadm, hreset⟩, hes⟩ := List.forall_mem_cons.1 h
    rcases Event.admitted_cases hadm with rfl | rfl | hacc
    · obtain ⟨t, ht, hdone⟩ := step_completes hb (.inl hi)
      exact ⟨1, t, Nat.le_add_left .., (steps_one s).trans ht, hdone⟩
    · exact absurd rfl hreset
    · obtain ⟨u, hu, hui, hrun⟩ := step_hostAccess hb hacc hi
      obtain ⟨n, t, hn, ht, hdone⟩ := ih hrun.busy hui hes
      exact ⟨n + 1, t, Nat.succ_le_succ hn, (steps_succ hu n).trans ht, hdone⟩

end Completion

/-- Settles O41: `steps_complete_of_admitted` for the moves that are waiting. -/
theorem acceptedCommandCompletes : Obligations.AcceptedCommandCompletes := fun _ hb h =>
  steps_complete_of_admitted hb rfl h

/-! ### Reset, and the first command after it (R170, R171, R172) -/

/-- Settles O2: the step is `State.toReset`, whatever the engine was doing. -/
theorem resetAbandonsRunningCommand : Obligations.ResetAbandonsRunningCommand := fun _ _ hi =>
  ⟨_, step_reset hi, rfl, rfl, rfl, rfl, rfl, rfl, rfl, rfl, rfl, rfl, rfl, rfl⟩

/-- Settles O3: the reset state's engine is idle, so the step issues the command, which latches the operands `0^L`. -/
theorem firstCommandAfterResetRunsOnZeros : Obligations.FirstCommandAfterResetRunsOnZeros := by
  intro c i es
  have hissue : step (State.resetOf c (issueCommand i :: es)) = .next ((State.resetOf c es).issue i) :=
    (stepRunsTheDecodedCommand _ _ i es rfl rfl (decode_encode i)).trans (exec_idle i rfl)
  exact ⟨_, hissue, executing_issue i _, rfl, rfl, rfl⟩

end Sys2Proof.Machine
